-- ==== Sys2Proof/Word.lean ====
section
/-! DEFINITION. The bit-vector types of RSE (spec/00_scope.md R9, R14; spec/30_encoding.md R61, R62). -/

namespace Sys2Proof

/-- A Word: 64 bits, index 0 the least significant (R9, R14). -/
abbrev Word := BitVec 64

/-- A command `CMD = {OP, A, B}`: 136 bits (R61). -/
abbrev CommandWord := BitVec 136

/-- A response `RSP = {ST, VAL}`: 72 bits (R62). -/
abbrev ResponseWord := BitVec 72

end Sys2Proof
end

