-- ==== Sys2Proof/Syntax.lean ====
section
/-! DEFINITION. The 25 commands of RSE (spec/30_encoding.md R64, spec/opcode_table.json), one
constructor a row, and the assembler's tokenised lines (R75, R76). -/

namespace Sys2Proof

/-- A decoded command.  `A` and `B` are taken whole as 64-bit unsigned values (R65); an operand that
R64 marks "—" has no argument here; `alpha` is `OP[0]` (R61, R63), `true` for one bits. -/
inductive Instr where
  /-- `0x10` WSET: `A = x` the word, `B = p` the bit position (R81). -/
  | wset (x p : Word)
  /-- `0x11` WACC: `A = x`, `B = p` (R82). -/
  | wacc (x p : Word)
  /-- `0x12` WCNT: `A = x` (R83). -/
  | wcnt (x : Word)
  /-- `0x14`/`0x15` WRANK: `A = x`, `B = n` (R84). -/
  | wrank (alpha : Bool) (x n : Word)
  /-- `0x16`/`0x17` WSEL: `A = x`, `B = n` (R85). -/
  | wsel (alpha : Bool) (x n : Word)
  /-- `0x18` WSELONE: `A = y`, `B = n` (R87). -/
  | wselone (y n : Word)
  /-- `0x20` LUTRD: `A = v` the byte value, `B = k` the occurrence index (R102). -/
  | lutrd (v k : Word)
  /-- `0x30` FVNEW: `A = n` the word count (R111). -/
  | fvnew (n : Word)
  /-- `0x31` FVPUTW: `A = i` the word index, `B = v` the word (R112). -/
  | fvputw (i v : Word)
  /-- `0x32` FVSET: `A = p` (R113). -/
  | fvset (p : Word)
  /-- `0x33` FVUNSET: `A = p` (R114). -/
  | fvunset (p : Word)
  /-- `0x34` FVACC: `A = p` (R115). -/
  | fvacc (p : Word)
  /-- `0x35` FVCNT (R116). -/
  | fvcnt
  /-- `0x36` FVLEN (R117). -/
  | fvlen
  /-- `0x37` FVEXT: `A = p`, `B = len` (R118). -/
  | fvext (p len : Word)
  /-- `0x40` BLD (R131). -/
  | bld
  /-- `0x41` BLDP (R132). -/
  | bldp
  /-- `0x42` PRECOMP (R133). -/
  | precomp
  /-- `0x50` LOCATE: `A = p` (R145). -/
  | locate (p : Word)
  /-- `0x51` ACC: `A = p` (R141). -/
  | acc (p : Word)
  /-- `0x52` SET: `A = p` (R142). -/
  | set (p : Word)
  /-- `0x54`/`0x55` RANK: `A = p` (R143). -/
  | rank (alpha : Bool) (p : Word)
  /-- `0x56`/`0x57` SEL: `A = n` (R144). -/
  | sel (alpha : Bool) (n : Word)
  /-- `0x58` OVH (R147). -/
  | ovh
  /-- `0x59` SIZE (R148). -/
  | size
  deriving DecidableEq, Repr

/-- The 25 mnemonics of R64. -/
inductive Mnemonic where
  | WSET | WACC | WCNT | WRANK | WSEL | WSELONE | LUTRD
  | FVNEW | FVPUTW | FVSET | FVUNSET | FVACC | FVCNT | FVLEN | FVEXT
  | BLD | BLDP | PRECOMP | LOCATE | ACC | SET | RANK | SEL | OVH | SIZE
  deriving DecidableEq, Repr

/-- One tokenised line of the assembler, `MNEMONIC[.alpha] [A [, B]]` (R75). -/
structure AsmLine where
  mnemonic : Mnemonic
  /-- the suffix `.0` (`some false`) or `.1` (`some true`), where one is written -/
  alpha : Option Bool
  /-- the operands that are written, in order -/
  operands : List Nat
  deriving DecidableEq, Repr

/-- The three textual command names of the harness, accepted as pseudo-instructions and nothing
else (R76). -/
inductive PseudoLine where
  /-- `access p` -/
  | access (p : Nat)
  /-- `rank false p`, `rank true p` -/
  | rank (alpha : Bool) (p : Nat)
  /-- `select false n`, `select true n` -/
  | select (alpha : Bool) (n : Nat)
  deriving DecidableEq, Repr

end Sys2Proof
end

