-- ==== Sys2Proof/WellFormed.lean ====
section
/-! DEFINITION. Which command words and which assembler lines are well formed.

Every term of `Instr` is a legal command by its type alone (`alpha` is one bit, `A` and `B` are 64
bits, an unused operand has no place to stand in).  What can be ill formed is a raw 136-bit word
(spec/30_encoding.md R65, R67) and a written assembler line (R75); the two checks stand here.  The
first is the opcode table's own rows, read independently of the decoder. -/

namespace Sys2Proof

/-- A row of spec/opcode_table.json: a word belongs to the row when it equals `value` under `mask`.
The mask covers the opcode bits that select the row and every operand field the command does not
use (R64). -/
structure OpcodeRow where
  mnemonic : Mnemonic
  value : CommandWord
  mask : CommandWord
  deriving DecidableEq, Repr

/-- The word belongs to the row. -/
def OpcodeRow.accepts (r : OpcodeRow) (c : CommandWord) : Bool := (c &&& r.mask) == r.value

/-- The Word unit (`0x10` to `0x18`): rows of the opcode table. -/
def wordRows : List OpcodeRow :=
  [ ⟨.WSET, 0x1000000000000000000000000000000000#136, 0xFF00000000000000000000000000000000#136⟩,
    ⟨.WACC, 0x1100000000000000000000000000000000#136, 0xFF00000000000000000000000000000000#136⟩,
    ⟨.WCNT, 0x1200000000000000000000000000000000#136, 0xFF0000000000000000FFFFFFFFFFFFFFFF#136⟩,
    ⟨.WRANK, 0x1400000000000000000000000000000000#136, 0xFE00000000000000000000000000000000#136⟩,
    ⟨.WSEL, 0x1600000000000000000000000000000000#136, 0xFE00000000000000000000000000000000#136⟩,
    ⟨.WSELONE, 0x1800000000000000000000000000000000#136, 0xFF00000000000000000000000000000000#136⟩ ]

/-- The Lookup Table (`0x20`): rows of the opcode table. -/
def lookupRows : List OpcodeRow :=
  [ ⟨.LUTRD, 0x2000000000000000000000000000000000#136, 0xFF00000000000000000000000000000000#136⟩ ]

/-- The Flat Vector (`0x30` to `0x37`): rows of the opcode table. -/
def flatRows : List OpcodeRow :=
  [ ⟨.FVNEW, 0x3000000000000000000000000000000000#136, 0xFF0000000000000000FFFFFFFFFFFFFFFF#136⟩,
    ⟨.FVPUTW, 0x3100000000000000000000000000000000#136, 0xFF00000000000000000000000000000000#136⟩,
    ⟨.FVSET, 0x3200000000000000000000000000000000#136, 0xFF0000000000000000FFFFFFFFFFFFFFFF#136⟩,
    ⟨.FVUNSET, 0x3300000000000000000000000000000000#136, 0xFF0000000000000000FFFFFFFFFFFFFFFF#136⟩,
    ⟨.FVACC, 0x3400000000000000000000000000000000#136, 0xFF0000000000000000FFFFFFFFFFFFFFFF#136⟩,
    ⟨.FVCNT, 0x3500000000000000000000000000000000#136, 0xFFFFFFFFFFFFFFFFFFFFFFFFFFFFFFFFFF#136⟩,
    ⟨.FVLEN, 0x3600000000000000000000000000000000#136, 0xFFFFFFFFFFFFFFFFFFFFFFFFFFFFFFFFFF#136⟩,
    ⟨.FVEXT, 0x3700000000000000000000000000000000#136, 0xFF00000000000000000000000000000000#136⟩ ]

/-- Building the Indexed Vector (`0x40` to `0x42`): rows of the opcode table. -/
def buildRows : List OpcodeRow :=
  [ ⟨.BLD, 0x4000000000000000000000000000000000#136, 0xFFFFFFFFFFFFFFFFFFFFFFFFFFFFFFFFFF#136⟩,
    ⟨.BLDP, 0x4100000000000000000000000000000000#136, 0xFFFFFFFFFFFFFFFFFFFFFFFFFFFFFFFFFF#136⟩,
    ⟨.PRECOMP, 0x4200000000000000000000000000000000#136, 0xFFFFFFFFFFFFFFFFFFFFFFFFFFFFFFFFFF#136⟩ ]

/-- Querying the Indexed Vector (`0x50` to `0x59`): rows of the opcode table. -/
def queryRows : List OpcodeRow :=
  [ ⟨.LOCATE, 0x5000000000000000000000000000000000#136, 0xFF0000000000000000FFFFFFFFFFFFFFFF#136⟩,
    ⟨.ACC, 0x5100000000000000000000000000000000#136, 0xFF0000000000000000FFFFFFFFFFFFFFFF#136⟩,
    ⟨.SET, 0x5200000000000000000000000000000000#136, 0xFF0000000000000000FFFFFFFFFFFFFFFF#136⟩,
    ⟨.RANK, 0x5400000000000000000000000000000000#136, 0xFE0000000000000000FFFFFFFFFFFFFFFF#136⟩,
    ⟨.SEL, 0x5600000000000000000000000000000000#136, 0xFE0000000000000000FFFFFFFFFFFFFFFF#136⟩,
    ⟨.OVH, 0x5800000000000000000000000000000000#136, 0xFFFFFFFFFFFFFFFFFFFFFFFFFFFFFFFFFF#136⟩,
    ⟨.SIZE, 0x5900000000000000000000000000000000#136, 0xFFFFFFFFFFFFFFFFFFFFFFFFFFFFFFFFFF#136⟩ ]

/-- The 25 rows of spec/opcode_table.json, in its order. -/
def opcodeTable : List OpcodeRow := wordRows ++ lookupRows ++ flatRows ++ buildRows ++ queryRows

/-- A command word is well formed when it matches a row of the table; any other word is illegal and
is answered `ERR_OPCODE` (R67). -/
def CommandWord.wellFormed (c : CommandWord) : Bool := opcodeTable.any (fun r => r.accepts c)

/-- The mnemonics that take the suffix `.0` or `.1` (R75). -/
def Mnemonic.takesAlpha : Mnemonic → Bool
  | .WRANK | .WSEL | .RANK | .SEL => true
  | .WSET | .WACC | .WCNT | .WSELONE | .LUTRD | .FVNEW | .FVPUTW | .FVSET | .FVUNSET | .FVACC
  | .FVCNT | .FVLEN | .FVEXT | .BLD | .BLDP | .PRECOMP | .LOCATE | .ACC | .SET | .OVH | .SIZE => false

/-- How many operands a line of this mnemonic writes: the fields R64 does not mark "—". -/
def Mnemonic.arity : Mnemonic → Nat
  | .FVCNT | .FVLEN | .BLD | .BLDP | .PRECOMP | .OVH | .SIZE => 0
  | .WCNT | .FVNEW | .FVSET | .FVUNSET | .FVACC | .LOCATE | .ACC | .SET | .RANK | .SEL => 1
  | .WSET | .WACC | .WRANK | .WSEL | .WSELONE | .LUTRD | .FVPUTW | .FVEXT => 2

/-- A written line is well formed when the suffix is there exactly where the mnemonic takes one, the
operands the command uses are all written and no other is, and each fits its 64-bit field (R61, R75). -/
def AsmLine.wellFormed (l : AsmLine) : Bool :=
  l.alpha.isSome == l.mnemonic.takesAlpha
    && l.operands.length == l.mnemonic.arity
    && l.operands.all (fun n => decide (n < 2 ^ 64))

end Sys2Proof
end

