-- ==== Sys2Proof/Decode.lean ====
section
/-! DEFINITION. The decoder, total on every 136-bit command word and rejecting by name, and the
encoder (spec/30_encoding.md R61, R64, R65, R67). -/

namespace Sys2Proof

/-- `OP = CMD[135:128]` (R61). -/
def CommandWord.op (c : CommandWord) : BitVec 8 := c.extractLsb' 128 8

/-- `A = CMD[127:64]` (R61). -/
def CommandWord.a (c : CommandWord) : Word := c.extractLsb' 64 64

/-- `B = CMD[63:0]` (R61). -/
def CommandWord.b (c : CommandWord) : Word := c.extractLsb' 0 64

/-- `CMD = {OP, A, B}` (R61). -/
def commandWord (op : BitVec 8) (a b : Word) : CommandWord := op ++ a ++ b

/-- Why a command word is illegal (R67).  Either reason is answered `ERR_OPCODE`. -/
inductive DecodeError where
  /-- an `OP` value that R64 does not list -/
  | reservedOpcode (op : BitVec 8)
  /-- a listed `OP` with a nonzero value in a field that R64 marks "—" -/
  | nonzeroUnusedField (op : BitVec 8)
  deriving DecidableEq, Repr

/-- The command `i`, provided the field it does not use is zero (R65). -/
def whenZero (op : BitVec 8) (unused : Word) (i : Instr) : Except DecodeError Instr :=
  if unused = 0#64 then .ok i else .error (.nonzeroUnusedField op)

/-- The command `i` that uses neither operand (R65). -/
def whenBothZero (op : BitVec 8) (a b : Word) (i : Instr) : Except DecodeError Instr :=
  if a = 0#64 ∧ b = 0#64 then .ok i else .error (.nonzeroUnusedField op)

/-- `alpha = OP[0]`, which is `CMD[128]` (R61, R63). -/
def alphaOf (op : BitVec 8) : Bool := op.getLsbD 0

/-- The opcode map of R64 on the three fields, with "must be zero" for every unused field (R65) and
every other word refused (R67). -/
def decodeFields (op : BitVec 8) (a b : Word) : Except DecodeError Instr :=
  match op.toNat with
  | 0x10 => .ok (.wset a b)
  | 0x11 => .ok (.wacc a b)
  | 0x12 => whenZero op b (.wcnt a)
  | 0x14 => .ok (.wrank (alphaOf op) a b)
  | 0x15 => .ok (.wrank (alphaOf op) a b)
  | 0x16 => .ok (.wsel (alphaOf op) a b)
  | 0x17 => .ok (.wsel (alphaOf op) a b)
  | 0x18 => .ok (.wselone a b)
  | 0x20 => .ok (.lutrd a b)
  | 0x30 => whenZero op b (.fvnew a)
  | 0x31 => .ok (.fvputw a b)
  | 0x32 => whenZero op b (.fvset a)
  | 0x33 => whenZero op b (.fvunset a)
  | 0x34 => whenZero op b (.fvacc a)
  | 0x35 => whenBothZero op a b .fvcnt
  | 0x36 => whenBothZero op a b .fvlen
  | 0x37 => .ok (.fvext a b)
  | 0x40 => whenBothZero op a b .bld
  | 0x41 => whenBothZero op a b .bldp
  | 0x42 => whenBothZero op a b .precomp
  | 0x50 => whenZero op b (.locate a)
  | 0x51 => whenZero op b (.acc a)
  | 0x52 => whenZero op b (.set a)
  | 0x54 => whenZero op b (.rank (alphaOf op) a)
  | 0x55 => whenZero op b (.rank (alphaOf op) a)
  | 0x56 => whenZero op b (.sel (alphaOf op) a)
  | 0x57 => whenZero op b (.sel (alphaOf op) a)
  | 0x58 => whenBothZero op a b .ovh
  | 0x59 => whenBothZero op a b .size
  | _ => .error (.reservedOpcode op)

/-- The decoder of a command word.  It depends on nothing but the word (R68). -/
def decode (c : CommandWord) : Except DecodeError Instr := decodeFields c.op c.a c.b

/-- `OP` of a command that takes `alpha`: the even value for `.0`, the odd one for `.1` (R63, R64). -/
def alphaOp (even odd : BitVec 8) (alpha : Bool) : BitVec 8 := if alpha then odd else even

/-- The encoder: the row of R64, unused fields zero (R65). -/
def encode : Instr → CommandWord
  | .wset x p => commandWord 0x10#8 x p
  | .wacc x p => commandWord 0x11#8 x p
  | .wcnt x => commandWord 0x12#8 x 0#64
  | .wrank alpha x n => commandWord (alphaOp 0x14#8 0x15#8 alpha) x n
  | .wsel alpha x n => commandWord (alphaOp 0x16#8 0x17#8 alpha) x n
  | .wselone y n => commandWord 0x18#8 y n
  | .lutrd v k => commandWord 0x20#8 v k
  | .fvnew n => commandWord 0x30#8 n 0#64
  | .fvputw i v => commandWord 0x31#8 i v
  | .fvset p => commandWord 0x32#8 p 0#64
  | .fvunset p => commandWord 0x33#8 p 0#64
  | .fvacc p => commandWord 0x34#8 p 0#64
  | .fvcnt => commandWord 0x35#8 0#64 0#64
  | .fvlen => commandWord 0x36#8 0#64 0#64
  | .fvext p len => commandWord 0x37#8 p len
  | .bld => commandWord 0x40#8 0#64 0#64
  | .bldp => commandWord 0x41#8 0#64 0#64
  | .precomp => commandWord 0x42#8 0#64 0#64
  | .locate p => commandWord 0x50#8 p 0#64
  | .acc p => commandWord 0x51#8 p 0#64
  | .set p => commandWord 0x52#8 p 0#64
  | .rank alpha p => commandWord (alphaOp 0x54#8 0x55#8 alpha) p 0#64
  | .sel alpha n => commandWord (alphaOp 0x56#8 0x57#8 alpha) n 0#64
  | .ovh => commandWord 0x58#8 0#64 0#64
  | .size => commandWord 0x59#8 0#64 0#64

/-- The 136-bit word that a row's number stands for: bit `i` of the number is bit `i` of `CMD`, and
the bits above `nbits` are zero (the host's numbering of spec/opcode_table.json).  DESIGN CHOICE
(assumption 11); safe. -/
def tableWord (nbits w : Nat) : CommandWord := BitVec.ofNat 136 (w % 2 ^ nbits)

/-- What the decoder reads from a word numbered as spec/opcode_table.json numbers it. -/
def decodeTableWord (nbits w : Nat) : Option Instr := (decode (tableWord nbits w)).toOption

end Sys2Proof
end

