-- ==== Sys2Proof/Config.lean ====
section
/-! DEFINITION. What an implementation of RSE fixes (spec/00_scope.md R10 to R12).

The only open parameter is the capacity `MAXW`.  The constants `64`, `W = 7`, `448 = 7 * 64` and
`512 = 8 * 64` are fixed (R9 to R11) and stand as numerals in the rules, as they do in the spec. -/

namespace Sys2Proof

/-- The open parameter of the engine (R12).  A machine carries its own value of it in
`Machine.State.cfg`, which no step changes: every statement about every state is then a statement
about every capacity (assumption 1). -/
structure Config where
  /-- `MAXW`: the capacity of the staging buffer in 64-bit words. -/
  maxW : Nat
  deriving DecidableEq, Repr

/-- The constraint `1 ≤ MAXW ≤ 2^48` of R12. -/
abbrev Config.Valid (c : Config) : Prop := 1 ≤ c.maxW ∧ c.maxW ≤ 2 ^ 48

/-- `MAXB = ceil (MAXW / 7)`: the capacity of the block store in blocks (R12). -/
def Config.maxB (c : Config) : Nat := (c.maxW + 6) / 7

/-- The capacity of the reset state that the host runs: the `MAXW = 64` for which
spec/95_test_vectors.md states its programs.  DESIGN CHOICE (assumption 1), unsafe: the spec leaves
`MAXW` open. -/
def Config.reference : Config := { maxW := 64 }

end Sys2Proof
end

