-- ==== Sys2Proof/Machine/State.lean ====
section
/-! DEFINITION. The state of RSE as plain data (spec/10_state.md R22), its interface to the host
(spec/30_encoding.md R60), the reasons a step can stop, and the state after reset
(spec/70_reset_and_hazards.md R210). -/

namespace Sys2Proof.Machine

/-- A store of 64-bit words indexed by number (R37, R41, R42): the listed entries, indices strictly
rising, none of them zero.  An unlisted index reads as zero.
DESIGN CHOICE (assumption 2); unsafe for a claim that names a word out of range. -/
abbrev Store := List (Nat × Word)

/-- `IDX`, the lifecycle state (R28): `unindexed` is `IDX = 0`, `indexed` is `IDX = 1`. -/
inductive Lifecycle where
  /-- payload copied, summaries not yet valid -/
  | unindexed
  /-- summaries valid -/
  | indexed
  deriving DecidableEq, Repr

/-- The architectural state, exactly the eight elements of R22. -/
structure Engine where
  /-- `FVN`: number of words in the staging buffer, 64 bits -/
  fvn : Word
  /-- `FV[i]`: word `i` of the staging buffer is at index `i` -/
  fv : Store
  /-- `NBLK`: number of blocks of the Indexed Vector, 64 bits -/
  nblk : Word
  /-- `LEN`: logical bit length of the Indexed Vector, 64 bits -/
  len : Word
  /-- `IDX`: the lifecycle state, one bit -/
  idx : Lifecycle
  /-- `FATAL`: a lookup-table inconsistency was detected, one bit, sticky -/
  fatal : Bool
  /-- `BLK[b].presum` at slot `8b` and `BLK[b].pay[w]` at slot `8b + 1 + w` (the slot addresses of
  R42) -/
  blk : Store
  deriving DecidableEq, Repr

/-- The status field `ST` of a response (R190). -/
inductive Status where
  /-- `0x00`: the command did what its rule says -/
  | ok
  /-- `0x01`: the command word is illegal -/
  | errOpcode
  /-- `0x02`: not allowed in the current lifecycle state -/
  | errState
  /-- `0x03`: a select was asked for occurrence number 0 -/
  | errNzero
  /-- `0x04`: an operand is outside its domain -/
  | errRange
  /-- `0x05`: the request exceeds the capacity `MAXW` -/
  | errCap
  /-- `0x06`: fewer than `n` occurrences exist -/
  | errNotFound
  /-- `0xFF`: lookup-table inconsistency, now or earlier -/
  | errFatal
  deriving DecidableEq, Repr

/-- A response `{ST, VAL}` (R62). -/
structure Response where
  st : Status
  val : Word
  deriving DecidableEq, Repr

/-- What the host does at the ports of R60, in the order it does it.  DESIGN CHOICE (assumptions 4, 5
and 12); safe for claims about responses: no cycle is counted, and reset lands between commands. -/
inductive HostEvent where
  /-- the host offers a command word until the engine accepts it -/
  | command (c : CommandWord)
  /-- the host takes the response that waits, if one does -/
  | takeResponse
  /-- the host pulses `rst` -/
  | reset
  deriving DecidableEq, Repr

/-- The machine: the engine, the parameter it was made with, and its two ports.  DESIGN CHOICE
(assumptions 1 and 13); safe: no command reads the three port fields. -/
structure State where
  /-- the parameter `MAXW` (R12, R39): no step changes it -/
  cfg : Config
  /-- the architectural state (R22) -/
  eng : Engine
  /-- what the host does from now on, next event first (the command stream of R39) -/
  inbox : List HostEvent
  /-- the response on the response port that the host has not taken, `rsp_valid = 1` where there is
  one (R38, R60) -/
  rsp : Option Response
  /-- the responses the host has taken, oldest first: the observation of the run (R39, R51) -/
  delivered : List Response
  deriving DecidableEq, Repr

/-- The reasons a step stops with a fault: none.  "every command word in every reachable state has
exactly one response and one next state" (R221): each error is a response (R195), and a latched
`FATAL` answers every command with `ERR_FATAL` (R196), which is a next state.  DEDUCED (assumption 7);
safe. -/
inductive Fault where
  deriving DecidableEq, Repr

/-- The reasons a step is refused. -/
inductive Refusal where
  /-- Raised by an arm of `exec` whose instruction has no meaning yet; no arm raises it.  Safe: the
  machine stops where the hardware would go on. -/
  | notModelled (mnemonic : String)
  deriving DecidableEq, Repr

/-- The architectural state after reset (R22, R210).  The stores' contents are unspecified and
unreachable; they are all zero here.  DESIGN CHOICE (assumption 2); unsafe for a claim that names one. -/
def Engine.reset : Engine :=
  { fvn := 0, fv := [], nblk := 0, len := 0, idx := .unindexed, fatal := false, blk := [] }

/-- The machine with parameter `cfg` after reset (R210): no command offered, `cmd_ready = 1`,
`rsp_valid = 0`. -/
def State.resetWith (cfg : Config) : State :=
  { cfg := cfg, eng := Engine.reset, inbox := [], rsp := none, delivered := [] }

/-- The machine right after reset.  DESIGN CHOICE (assumption 1), unsafe: its capacity is one of those
that R12 allows. -/
def State.reset : State := State.resetWith Config.reference

end Sys2Proof.Machine
end

