-- ==== Sys2Proof/Machine/Ops.lean ====
section
/-! DEFINITION. The named operations over the stores, the engine's registers and the two ports, and
the one operation that runs a command: answer it, or raise its error (spec/30_encoding.md R66,
spec/60_exceptions.md R190 to R196). -/

namespace Sys2Proof.Machine

/-! ### Stores -/

/-- The canonical form: indices strictly rising and no entry zero. -/
def Store.wf : Store → Bool
  | [] => true
  | (k, u) :: rest => u != 0#64 && rest.all (fun entry => decide (k < entry.1)) && Store.wf rest

/-- The word at index `a`; an unlisted index reads as zero (assumption 2). -/
def Store.read : Store → Nat → Word
  | [], _ => 0#64
  | (k, u) :: rest, a => if k = a then u else Store.read rest a

/-- Write `v` at index `a`, keeping the canonical form. -/
def Store.write : Store → Nat → Word → Store
  | [], a, v => if v = 0#64 then [] else [(a, v)]
  | (k, u) :: rest, a, v =>
    if a < k then (if v = 0#64 then (k, u) :: rest else (a, v) :: (k, u) :: rest)
    else if a = k then (if v = 0#64 then rest else (a, v) :: rest)
    else (k, u) :: Store.write rest a v

/-- Write zero at every index below `n`. -/
def Store.clearBelow (m : Store) (n : Nat) : Store := m.filter (fun entry => decide (n ≤ entry.1))

/-- Write `f 0, …, f (k - 1)` at the indices `a, …, a + k - 1`, in rising order. -/
def Store.fill (m : Store) (a : Nat) (f : Nat → Word) : Nat → Store
  | 0 => m
  | k + 1 => (Store.fill m a f k).write (a + k) (f k)

/-! ### The engine's stores by the spec's names -/

/-- `FV[i]` (R41). -/
def Engine.fvWord (e : Engine) (i : Nat) : Word := e.fv.read i

/-- `FV[i] <- v`. -/
def Engine.setFvWord (e : Engine) (i : Nat) (v : Word) : Engine := { e with fv := e.fv.write i v }

/-- The slot of `BLK[b].presum` (R42). -/
abbrev presumSlot (b : Nat) : Nat := 8 * b

/-- The slot of `BLK[b].pay[w]` (R42). -/
abbrev paySlot (b w : Nat) : Nat := 8 * b + 1 + w

/-- `BLK[b].presum` (R25). -/
def Engine.presum (e : Engine) (b : Nat) : Word := e.blk.read (presumSlot b)

/-- `BLK[b].pay[w]` (R25). -/
def Engine.pay (e : Engine) (b w : Nat) : Word := e.blk.read (paySlot b w)

/-- `BLK[b].pay[w] <- v`. -/
def Engine.setPay (e : Engine) (b w : Nat) (v : Word) : Engine :=
  { e with blk := e.blk.write (paySlot b w) v }

/-! ### Responses -/

/-- The code of a status (R190). -/
def Status.code : Status → BitVec 8
  | .ok => 0x00#8
  | .errOpcode => 0x01#8
  | .errState => 0x02#8
  | .errNzero => 0x03#8
  | .errRange => 0x04#8
  | .errCap => 0x05#8
  | .errNotFound => 0x06#8
  | .errFatal => 0xFF#8

/-- The 72 bits `RSP = {ST, VAL}` on the response port (R62). -/
def Response.word (r : Response) : ResponseWord := r.st.code ++ r.val

/-- A number as a 64-bit result: every result of a rule is a number that fits (R12, R90).  DEDUCED
(assumption 6); safe under the invariants. -/
def result (n : Nat) : Word := BitVec.ofNat 64 n

/-- A Boolean result: `VAL = 1` for true and `VAL = 0` for false (R62). -/
def boolResult (b : Bool) : Word := if b then 1#64 else 0#64

/-! ### The ports (R60) -/

/-- `cmd_ready`: the engine raises it "only when no command is in flight and no response is waiting";
between steps no command is in flight. -/
def State.cmdReady (s : State) : Bool := s.rsp.isNone

/-- `rsp_valid`. -/
def State.rspValid (s : State) : Bool := s.rsp.isSome

/-- The host takes the response that waits, if one does. -/
def State.deliver (s : State) : State :=
  { s with rsp := none, delivered := s.delivered ++ s.rsp.toList }

/-- End the command: the engine is left as `e`, and `{st, val}` is the one response to it.  The
response before it has been delivered, since the engine accepts no command while one waits (R60).
DESIGN CHOICE (assumption 4); unsafe for a claim about a host that never takes a response. -/
def State.respond (s : State) (e : Engine) (st : Status) (val : Word) : State :=
  { s with eng := e, rsp := some { st := st, val := val }, delivered := s.delivered ++ s.rsp.toList }

/-! ### Running a command (R66) -/

/-- How a command's own rule ends (R16): an error, a newly detected table inconsistency, or the engine
it leaves with its result. -/
inductive Verdict where
  /-- `raise E`: nothing has been written (R193) -/
  | raise (st : Status)
  /-- `raise ERR_FATAL`: also `FATAL <- 1` (R196) -/
  | raiseFatal
  /-- `respond(OK, VAL)`, with the state the rule's writes leave -/
  | reply (e : Engine) (val : Word)
  deriving DecidableEq, Repr

/-- The response to a verdict on the engine (R193, R195, R196): an error leaves the engine as it was
and carries `VAL = 0`, a new `ERR_FATAL` writes `FATAL` and nothing else.  This is all that an error
does: there is no trap, nothing is saved, and nothing returns from it (R195, R197). -/
def State.conclude (s : State) : Verdict → State
  | .raise st => s.respond s.eng st 0#64
  | .raiseFatal => s.respond { s.eng with fatal := true } .errFatal 0#64
  | .reply e val => s.respond e .ok val

/-- Run the command whose rule is `rule`: the preamble's first step, then the rule (R66 steps 1, 3, 4
and 5). -/
def State.perform (s : State) (rule : Engine → Verdict) : Host.Outcome State Fault Refusal :=
  .next (if s.eng.fatal then s.respond s.eng .errFatal 0#64 else s.conclude (rule s.eng))

/-- Answer an illegal command word (R66 steps 1 and 2, R67). -/
def State.performIllegal (s : State) : Host.Outcome State Fault Refusal :=
  s.perform (fun _ => .raise .errOpcode)

/-- Reset (R210): the engine is as after reset, a response that waits is dropped, and what the host
does afterwards and has already taken is the host's own.  DESIGN CHOICE (assumption 5); safe but for
a claim that names a store word after reset. -/
def State.applyReset (s : State) : State :=
  { State.resetWith s.cfg with inbox := s.inbox, delivered := s.delivered }

end Sys2Proof.Machine
end

