-- ==== Sys2Proof/Machine/Operands.lean ====
section
/-! DEFINITION. Bits, words and positions: the primitives of spec/00_scope.md R14 to R17, the Word
operations of spec/40_word_unit.md R81 to R84, and the decomposition of a position of
spec/44_query.md R140. -/

namespace Sys2Proof.Machine

/-- `f 0 + … + f (n - 1)`. -/
def sumBelow (f : Nat → Nat) : Nat → Nat
  | 0 => 0
  | n + 1 => sumBelow f n + f n

/-- `popcount(x)`: how many bits of `x` are 1 (R17). -/
def popcount {w : Nat} (x : BitVec w) : Nat := Nat.count (fun i => x.getLsbD i = true) w

/-- `mask(n)`, `0 ≤ n ≤ 64`: the low `n` bits are 1 and the rest 0, by cases so that no shift by 64 is
ever written (R16). -/
def mask (n : Nat) : Word := if n < 64 then (1#64 <<< n) - 1#64 else BitVec.allOnes 64

/-- `WordSet(x, p) = x | (1 << p)` (R81). -/
def wordSet (x : Word) (p : Nat) : Word := x ||| (1#64 <<< p)

/-- Clear bit `p` and leave the rest: `x & ~(1 << p)` (R114). -/
def wordClear (x : Word) (p : Nat) : Word := x &&& ~~~(1#64 <<< p)

/-- `WordAccess(x, p) = x[p]` (R82). -/
def wordAccess (x : Word) (p : Nat) : Bool := x.getLsbD p

/-- `WordRank(alpha, x, n)` (R84). -/
def wordRank (alpha : Bool) (x : Word) (n : Nat) : Nat :=
  let c := popcount (x &&& mask n)
  if alpha then c else n - c

/-- How many bits of the whole word equal `alpha`: `popcount(x)`, or `64 - popcount(x)` for zeros
(R144 step 2). -/
def wordCount (alpha : Bool) (x : Word) : Nat := if alpha then popcount x else 64 - popcount x

/-- Segment `s` of a word, `y[8s+7 : 8s]` (R45). -/
def segment (y : Word) (s : Nat) : BitVec 8 := y.extractLsb' (8 * s) 8

/-- Where a position of the Indexed Vector lies: block, payload word, bit (R140). -/
structure Location where
  block : Nat
  word : Nat
  bit : Nat
  deriving DecidableEq, Repr

/-- `Locate(p)` (R140). -/
def locate (p : Nat) : Location :=
  let wi := p / 64
  { block := wi / 7, word := wi % 7, bit := p % 64 }

end Sys2Proof.Machine
end

