-- ==== Sys2Proof/Machine/FlatVector.lean ====
section
/-! DEFINITION. The Flat Vector staging buffer and its eight commands (spec/42_flat_vector.md R110 to
R118). -/

namespace Sys2Proof.Machine

/-- The bit length of the Flat Vector, `64 × FVN` (R23). -/
def Engine.fvBits (e : Engine) : Nat := 64 * e.fvn.toNat

/-- FVNEW: a Flat Vector of `n` zero words (R111). -/
def execFvnew (n : Word) (s : State) : Host.Outcome State Fault Refusal :=
  s.perform fun e =>
    if s.cfg.maxW < n.toNat then .raise .errCap
    else .reply { e with fvn := n, fv := e.fv.clearBelow n.toNat } 0#64

/-- FVPUTW: write word `i` (R112). -/
def execFvputw (i v : Word) (s : State) : Host.Outcome State Fault Refusal :=
  s.perform fun e =>
    if e.fvn.toNat ≤ i.toNat then .raise .errRange
    else .reply (e.setFvWord i.toNat v) 0#64

/-- FVSET: set the bit at position `p` (R113). -/
def execFvset (p : Word) (s : State) : Host.Outcome State Fault Refusal :=
  s.perform fun e =>
    if e.fvBits ≤ p.toNat then .raise .errRange
    else
      let i := p.toNat / 64
      .reply (e.setFvWord i (wordSet (e.fvWord i) (p.toNat % 64))) 0#64

/-- FVUNSET: clear the bit at position `p` (R114). -/
def execFvunset (p : Word) (s : State) : Host.Outcome State Fault Refusal :=
  s.perform fun e =>
    if e.fvBits ≤ p.toNat then .raise .errRange
    else
      let i := p.toNat / 64
      .reply (e.setFvWord i (wordClear (e.fvWord i) (p.toNat % 64))) 0#64

/-- FVACC: the bit at position `p` (R115). -/
def execFvacc (p : Word) (s : State) : Host.Outcome State Fault Refusal :=
  s.perform fun e =>
    if e.fvBits ≤ p.toNat then .raise .errRange
    else .reply e (boolResult (wordAccess (e.fvWord (p.toNat / 64)) (p.toNat % 64)))

/-- FVCNT: the one bits of the whole Flat Vector (R116). -/
def execFvcnt (s : State) : Host.Outcome State Fault Refusal :=
  s.perform fun e => .reply e (result (sumBelow (fun i => popcount (e.fvWord i)) e.fvn.toNat))

/-- FVLEN: the bit length of the Flat Vector (R117). -/
def execFvlen (s : State) : Host.Outcome State Fault Refusal :=
  s.perform fun e => .reply e (result e.fvBits)

/-- `ExtractRun(p, len)`: the window of `len` bits at position `p`, merged from the one or two words
that hold it (R118). -/
def Engine.extractRun (e : Engine) (p len : Nat) : Word :=
  if len = 0 then 0#64
  else
    let i := p / 64
    let o := p % 64
    let lo := e.fvWord i >>> o
    let hi := if 64 < o + len then e.fvWord (i + 1) <<< (64 - o) else 0#64
    (lo ||| hi) &&& mask len

/-- FVEXT: a window of up to 64 bits, wholly inside the vector; the sum `p + len` is a number and does
not wrap (R118). -/
def execFvext (p len : Word) (s : State) : Host.Outcome State Fault Refusal :=
  s.perform fun e =>
    if 64 < len.toNat then .raise .errRange
    else if e.fvBits < p.toNat + len.toNat then .raise .errRange
    else .reply e (e.extractRun p.toNat len.toNat)

end Sys2Proof.Machine
end

