-- ==== Sys2Proof/Machine/Build.lean ====
section
/-! DEFINITION. Building the Indexed Vector: BLD, BLDP, PRECOMP (spec/43_build_precompute.md R130 to
R136). -/

namespace Sys2Proof.Machine

/-- Word `j` of the input of a build: `FV[j]`, and zero past the end (the padding words, R131). -/
def Engine.inputWord (e : Engine) (j : Nat) : Word := if j < e.fvn.toNat then e.fvWord j else 0#64

/-- `ceil (FVN / 7)`, the number of blocks of a build (R131). -/
def Engine.blocksNeeded (e : Engine) : Nat := (e.fvn.toNat + 6) / 7

/-- Write block `b`: its seven payload words from `input`, and its counter (R131, R132). -/
def copyBlock (input : Nat → Word) (b : Nat) (presum : Word) (m : Store) : Store :=
  (m.fill (paySlot b 0) (fun w => input (7 * b + w)) 7).write (presumSlot b) presum

/-- BLD's pass over the first blocks, in order: payload copied, counters zero (R131). -/
def bldPass (input : Nat → Word) (m : Store) : Nat → Store
  | 0 => m
  | b + 1 => copyBlock input b 0#64 (bldPass input m b)

/-- The one bits among the seven words of block `b` of the input (R132). -/
def inputOnes (input : Nat → Word) (b : Nat) : Nat :=
  sumBelow (fun w => popcount (input (7 * b + w))) 7

/-- BLDP's pass over the first blocks, in order, with the running total of the one bits seen so far
(R132). -/
def bldpPass (input : Nat → Word) (m : Store) : Nat → Store × Nat
  | 0 => (m, 0)
  | b + 1 =>
    let before := bldpPass input m b
    (copyBlock input b (result before.2) before.1, before.2 + inputOnes input b)

/-- `Ones(Block[b].payload)` in a block store (R30). -/
def storedOnes (m : Store) (b : Nat) : Nat := sumBelow (fun w => popcount (m.read (paySlot b w))) 7

/-- PRECOMP's pass over the first blocks, in order: always a fresh pass from `total = 0` (R133). -/
def precompPass (m : Store) : Nat → Store × Nat
  | 0 => (m, 0)
  | b + 1 =>
    let before := precompPass m b
    (before.1.write (presumSlot b) (result before.2), before.2 + storedOnes before.1 b)

/-- BLD: copy the Flat Vector into blocks, counters zero, unindexed (R131). -/
def execBld (s : State) : Host.Outcome State Fault Refusal :=
  s.perform fun e =>
    .reply { e with
      nblk := result e.blocksNeeded
      blk := bldPass e.inputWord e.blk e.blocksNeeded
      len := result e.fvBits
      idx := .unindexed } 0#64

/-- BLDP: copy the Flat Vector into blocks and compute every counter in the same pass (R132). -/
def execBldp (s : State) : Host.Outcome State Fault Refusal :=
  s.perform fun e =>
    .reply { e with
      nblk := result e.blocksNeeded
      blk := (bldpPass e.inputWord e.blk e.blocksNeeded).1
      len := result e.fvBits
      idx := .indexed } 0#64

/-- PRECOMP: fill the counters of the blocks that are there (R133). -/
def execPrecomp (s : State) : Host.Outcome State Fault Refusal :=
  s.perform fun e =>
    .reply { e with blk := (precompPass e.blk e.nblk.toNat).1, idx := .indexed } 0#64

end Sys2Proof.Machine
end

