-- ==== Sys2Proof/Machine/LookupTable.lean ====
section
/-! DEFINITION. The Lookup Table ROM and LUTRD (spec/41_lookup_table.md R100 to R104). -/

namespace Sys2Proof.Machine

/-- An entry of the table: the valid flag and the position, three bits (R101). -/
structure LutEntry where
  valid : Bool
  pos : BitVec 3
  deriving DecidableEq, Repr

/-- The nibble `{valid, pos[2:0]}` (R101). -/
def LutEntry.nibble (entry : LutEntry) : BitVec 4 := BitVec.ofBool entry.valid ++ entry.pos

/-- The position of the `(k+1)`-th one bit of `v`: the `j` with `v[j] = 1` and exactly `k` one bits
below it; 0 where there is none (R100). -/
def lutPos (v : BitVec 8) (k : Nat) : Nat :=
  ((List.range 8).find? fun j =>
    v.getLsbD j && (Nat.count (fun i => v.getLsbD i = true) j == k)).getD 0

/-- `LUT(v, k)`, the constant table, as the function R100 defines (R13, R44, R104). -/
def lut (v : BitVec 8) (k : Nat) : LutEntry :=
  if k + 1 ≤ popcount v then { valid := true, pos := BitVec.ofNat 3 (lutPos v k) }
  else { valid := false, pos := 0 }

/-- LUTRD reads one entry of the table (R102). -/
def execLutrd (v k : Word) (s : State) : Host.Outcome State Fault Refusal :=
  s.perform fun e =>
    if 255 < v.toNat ∨ 7 < k.toNat then .raise .errRange
    else .reply e ((lut (v.setWidth 8) k.toNat).nibble.setWidth 64)

end Sys2Proof.Machine
end

