-- ==== Sys2Proof/Machine/WordUnit.lean ====
section
/-! DEFINITION. The Word unit: SelectOne, WordSelect and the six commands that expose the unit
(spec/40_word_unit.md R80 to R89). -/

namespace Sys2Proof.Machine

/-- What SelectOne answers (R86). -/
inductive SelectResult where
  /-- a position `0..63` -/
  | position (p : Nat)
  /-- the word holds too few occurrences -/
  | notFound
  /-- the table said invalid -/
  | inconsistent
  deriving DecidableEq, Repr

/-- The loop of SelectOne over the segments `s, s + 1, …`, with `left` segments to go and `need`
occurrences still needed, least significant segment first (R86).  The table is an argument, which
keeps the arm of an invalid entry live (R88). -/
def selectScan (table : BitVec 8 → Nat → LutEntry) (y : Word) : Nat → Nat → Nat → SelectResult
  | 0, _, _ => .notFound
  | left + 1, s, need =>
    let seg := segment y s
    let c := popcount seg
    if c < need then selectScan table y left (s + 1) (need - c)
    else
      let entry := table seg (need - 1)
      if entry.valid then .position (8 * s + entry.pos.toNat) else .inconsistent

/-- `SelectOne(y, n)` by a given table (R86). -/
def selectOneBy (table : BitVec 8 → Nat → LutEntry) (y : Word) (n : Nat) : SelectResult :=
  selectScan table y 8 0 n

/-- `SelectOne(y, n)`, `n ≥ 1` (R86). -/
def selectOne (y : Word) (n : Nat) : SelectResult := selectOneBy lut y n

/-- `WordSelect(alpha, x, n)`, `n ≥ 1`: zeros are the ones of the complement (R85). -/
def wordSelect (alpha : Bool) (x : Word) (n : Nat) : SelectResult :=
  selectOne (if alpha then x else ~~~x) n

/-- The answer of a word select command (R85, R87). -/
def selectVerdict (e : Engine) : SelectResult → Verdict
  | .position p => .reply e (result p)
  | .notFound => .raise .errNotFound
  | .inconsistent => .raiseFatal

/-- WSET: the word with bit `p` set (R81). -/
def execWset (x p : Word) (s : State) : Host.Outcome State Fault Refusal :=
  s.perform fun e =>
    if 64 ≤ p.toNat then .raise .errRange else .reply e (wordSet x p.toNat)

/-- WACC: bit `p` of the word (R82). -/
def execWacc (x p : Word) (s : State) : Host.Outcome State Fault Refusal :=
  s.perform fun e =>
    if 64 ≤ p.toNat then .raise .errRange
    else .reply e (boolResult (wordAccess x p.toNat))

/-- WCNT: the number of one bits of the word (R83). -/
def execWcnt (x : Word) (s : State) : Host.Outcome State Fault Refusal :=
  s.perform fun e => .reply e (result (popcount x))

/-- WRANK: how many of the bits `[0, n)` equal `alpha`; `n = 64` is legal (R84). -/
def execWrank (alpha : Bool) (x n : Word) (s : State) : Host.Outcome State Fault Refusal :=
  s.perform fun e =>
    if 64 < n.toNat then .raise .errRange
    else .reply e (result (wordRank alpha x n.toNat))

/-- WSEL: the position of the `n`-th bit equal to `alpha` (R85). -/
def execWsel (alpha : Bool) (x n : Word) (s : State) : Host.Outcome State Fault Refusal :=
  s.perform fun e =>
    if n = 0#64 then .raise .errNzero else selectVerdict e (wordSelect alpha x n.toNat)

/-- WSELONE: the position of the `n`-th one bit (R87). -/
def execWselone (y n : Word) (s : State) : Host.Outcome State Fault Refusal :=
  s.perform fun e =>
    if n = 0#64 then .raise .errNzero else selectVerdict e (selectOne y n.toNat)

end Sys2Proof.Machine
end

