-- ==== Sys2Proof/Machine/Query.lean ====
section
/-! DEFINITION. Querying the Indexed Vector: LOCATE, ACC, SET, RANK, SEL, OVH, SIZE
(spec/44_query.md R140 to R149). -/

namespace Sys2Proof.Machine

/-- LOCATE: the decomposition of a position, `(b << 9) | (w << 6) | o` (R145). -/
def execLocate (p : Word) (s : State) : Host.Outcome State Fault Refusal :=
  s.perform fun e =>
    if e.len.toNat ≤ p.toNat then .raise .errRange
    else
      let l := locate p.toNat
      .reply e (result l.block <<< 9 ||| result l.word <<< 6 ||| result l.bit)

/-- ACC: the bit at position `p`, in either lifecycle state (R141). -/
def execAcc (p : Word) (s : State) : Host.Outcome State Fault Refusal :=
  s.perform fun e =>
    if e.len.toNat ≤ p.toNat then .raise .errRange
    else
      let l := locate p.toNat
      .reply e (boolResult (wordAccess (e.pay l.block l.word) l.bit))

/-- SET: set the bit at position `p`, refused once indexed (R142). -/
def execSet (p : Word) (s : State) : Host.Outcome State Fault Refusal :=
  s.perform fun e =>
    if e.idx = .indexed then .raise .errState
    else if e.len.toNat ≤ p.toNat then .raise .errRange
    else
      let l := locate p.toNat
      .reply (e.setPay l.block l.word (wordSet (e.pay l.block l.word) l.bit)) 0#64

/-- The one bits strictly before a location: the block's counter, the whole words before the word, and
the bits before the bit; one block is read (R143). -/
def Engine.onesBefore (e : Engine) (l : Location) : Nat :=
  (e.presum l.block).toNat + sumBelow (fun j => popcount (e.pay l.block j)) l.word
    + wordRank true (e.pay l.block l.word) l.bit

/-- RANK: how many bits before position `p` equal `alpha` (R143). -/
def execRank (alpha : Bool) (p : Word) (s : State) : Host.Outcome State Fault Refusal :=
  s.perform fun e =>
    if e.idx = .unindexed then .raise .errState
    else if e.len.toNat ≤ p.toNat then .raise .errRange
    else
      let ones := e.onesBefore (locate p.toNat)
      .reply e (result (if alpha then ones else p.toNat - ones))

/-- `C(i)`: the bits equal to `alpha` strictly before block `i` (R144). -/
def Engine.countBefore (e : Engine) (alpha : Bool) (i : Nat) : Nat :=
  if alpha then (e.presum i).toNat else 448 * i - (e.presum i).toNat

/-- The loop of the leftmost-lower-bound search on `[lo, hi)` for the first index whose count reaches
`n`, with at most `fuel` iterations (R144 step 1, R149). -/
def lowerBound (count : Nat → Nat) (n : Nat) : Nat → Nat → Nat → Nat
  | 0, lo, _ => lo
  | fuel + 1, lo, hi =>
    if lo < hi then
      let mid := (lo + hi) / 2
      if count mid < n then lowerBound count n fuel (mid + 1) hi
      else lowerBound count n fuel lo mid
    else lo

/-- Step 1 of SEL: the first block whose count reaches `n`, or `NBLK` if none does.  An interval
shorter than `2^64` is empty after 64 halvings, so 64 iterations are enough (R220).  DEDUCED
(assumption 8); safe. -/
def Engine.boundaryBlock (e : Engine) (alpha : Bool) (n : Nat) : Nat :=
  lowerBound (e.countBefore alpha) n 64 0 e.nblk.toNat

/-- The loop of step 2 of SEL over the words `w, w + 1, …` of a block, with `left` words to go and `acc`
occurrences counted: the first word in which the count reaches `r`, and the residual inside it
(R144). -/
def scanWords (alpha : Bool) (word : Nat → Word) (r : Nat) : Nat → Nat → Nat → Option (Nat × Nat)
  | 0, _, _ => none
  | left + 1, w, acc =>
    let c := wordCount alpha (word w)
    if r ≤ acc + c then some (w, r - acc) else scanWords alpha word r left (w + 1) (acc + c)

/-- Steps 2 and 3 of SEL inside block `b` (R144): a position at or past `LEN` lies in a padding word and
is no answer (R146).  The word select never reports too few here; that arm answers the same.  DESIGN
CHOICE (assumption 9); safe, since no state reaches it. -/
def Engine.selectInBlock (e : Engine) (alpha : Bool) (n b : Nat) : Verdict :=
  match scanWords alpha (e.pay b) (n - e.countBefore alpha b) 7 0 0 with
  | none => .raise .errNotFound
  | some (w, residual) =>
    match wordSelect alpha (e.pay b w) residual with
    | .position off =>
      let pos := 448 * b + 64 * w + off
      if pos < e.len.toNat then .reply e (result pos) else .raise .errNotFound
    | .notFound => .raise .errNotFound
    | .inconsistent => .raiseFatal

/-- SEL: the position of the `n`-th bit equal to `alpha`; the scan starts one block before the boundary
block (R144). -/
def execSel (alpha : Bool) (n : Word) (s : State) : Host.Outcome State Fault Refusal :=
  s.perform fun e =>
    if e.idx = .unindexed then .raise .errState
    else if n = 0#64 then .raise .errNzero
    else
      match e.boundaryBlock alpha n.toNat with
      | 0 => .raise .errNotFound
      | b + 1 => e.selectInBlock alpha n.toNat b

/-- OVH: the bits of the summary counters, `64 × NBLK` (R147). -/
def execOvh (s : State) : Host.Outcome State Fault Refusal :=
  s.perform fun e => .reply e (result (64 * e.nblk.toNat))

/-- SIZE: the bits of the whole structure, `512 × NBLK` (R148). -/
def execSize (s : State) : Host.Outcome State Fault Refusal :=
  s.perform fun e => .reply e (result (512 * e.nblk.toNat))

end Sys2Proof.Machine
end

