-- ==== Sys2Proof/Machine/Dispatch.lean ====
section
/-! DEFINITION. One arm a command: the meaning of every row of spec/opcode_table.json. -/

namespace Sys2Proof.Machine

def exec (i : Instr) (s : State) : Host.Outcome State Fault Refusal :=
  match i with
  | .wset x p => Sys2Proof.Machine.execWset x p s
  | .wacc x p => Sys2Proof.Machine.execWacc x p s
  | .wcnt x => Sys2Proof.Machine.execWcnt x s
  | .wrank alpha x n => Sys2Proof.Machine.execWrank alpha x n s
  | .wsel alpha x n => Sys2Proof.Machine.execWsel alpha x n s
  | .wselone y n => Sys2Proof.Machine.execWselone y n s
  | .lutrd v k => Sys2Proof.Machine.execLutrd v k s
  | .fvnew n => Sys2Proof.Machine.execFvnew n s
  | .fvputw j v => Sys2Proof.Machine.execFvputw j v s
  | .fvset p => Sys2Proof.Machine.execFvset p s
  | .fvunset p => Sys2Proof.Machine.execFvunset p s
  | .fvacc p => Sys2Proof.Machine.execFvacc p s
  | .fvcnt => Sys2Proof.Machine.execFvcnt s
  | .fvlen => Sys2Proof.Machine.execFvlen s
  | .fvext p len => Sys2Proof.Machine.execFvext p len s
  | .bld => Sys2Proof.Machine.execBld s
  | .bldp => Sys2Proof.Machine.execBldp s
  | .precomp => Sys2Proof.Machine.execPrecomp s
  | .locate p => Sys2Proof.Machine.execLocate p s
  | .acc p => Sys2Proof.Machine.execAcc p s
  | .set p => Sys2Proof.Machine.execSet p s
  | .rank alpha p => Sys2Proof.Machine.execRank alpha p s
  | .sel alpha n => Sys2Proof.Machine.execSel alpha n s
  | .ovh => Sys2Proof.Machine.execOvh s
  | .size => Sys2Proof.Machine.execSize s

end Sys2Proof.Machine
end

