-- ==== Sys2Proof/Machine/Step.lean ====
section
/-! DEFINITION. One step of the machine: the host's next event at the ports (spec/30_encoding.md R60,
R66; spec/20_memory.md R50). -/

namespace Sys2Proof.Machine

/-- Accept a command word and run it to its response, as one indivisible step (R50, R66). -/
def State.runWord (s : State) (c : CommandWord) : Host.Outcome State Fault Refusal :=
  match decode c with
  | .ok i => exec i s
  | .error _ => s.performIllegal

/-- One step: the host's next event.  With none the engine idles and keeps all state (R204). -/
def step (s : State) : Host.Outcome State Fault Refusal :=
  match s.inbox with
  | [] => .next s
  | .command c :: rest => ({ s with inbox := rest } : State).runWord c
  | .takeResponse :: rest => .next ({ s with inbox := rest } : State).deliver
  | .reset :: rest => .next ({ s with inbox := rest } : State).applyReset

/-- The host offers the word that a row's number stands for, before anything else it does: the next
step runs it.  DESIGN CHOICE (assumption 3); safe. -/
def State.withFetchWord (s : State) (nbits w : Nat) : State :=
  { s with inbox := .command (tableWord nbits w) :: s.inbox }

end Sys2Proof.Machine
end

