-- ==== Sys2Proof/Machine/Assembler.lean ====
section
/-! DEFINITION. The assembler notation of spec/30_encoding.md: a written line and the command it
encodes (R75), the three pseudo-instructions (R76), and a program as a sequence of lines. -/

namespace Sys2Proof.Machine

/-! ### Tokenised lines -/

/-- The command of a line, if the line is well formed: the operands in the order `A`, `B`, the suffix
as `alpha`, an operand that is not written encoded as zero (R75). -/
def assemble (l : AsmLine) : Option Instr :=
  if l.wellFormed then
    let alpha := l.alpha.getD false
    let a := BitVec.ofNat 64 (l.operands.getD 0 0)
    let b := BitVec.ofNat 64 (l.operands.getD 1 0)
    some <| match l.mnemonic with
      | .WSET => .wset a b
      | .WACC => .wacc a b
      | .WCNT => .wcnt a
      | .WRANK => .wrank alpha a b
      | .WSEL => .wsel alpha a b
      | .WSELONE => .wselone a b
      | .LUTRD => .lutrd a b
      | .FVNEW => .fvnew a
      | .FVPUTW => .fvputw a b
      | .FVSET => .fvset a
      | .FVUNSET => .fvunset a
      | .FVACC => .fvacc a
      | .FVCNT => .fvcnt
      | .FVLEN => .fvlen
      | .FVEXT => .fvext a b
      | .BLD => .bld
      | .BLDP => .bldp
      | .PRECOMP => .precomp
      | .LOCATE => .locate a
      | .ACC => .acc a
      | .SET => .set a
      | .RANK => .rank alpha a
      | .SEL => .sel alpha a
      | .OVH => .ovh
      | .SIZE => .size
  else none

/-- The line that writes a command (R75). -/
def disassemble : Instr → AsmLine
  | .wset x p => ⟨.WSET, none, [x.toNat, p.toNat]⟩
  | .wacc x p => ⟨.WACC, none, [x.toNat, p.toNat]⟩
  | .wcnt x => ⟨.WCNT, none, [x.toNat]⟩
  | .wrank alpha x n => ⟨.WRANK, some alpha, [x.toNat, n.toNat]⟩
  | .wsel alpha x n => ⟨.WSEL, some alpha, [x.toNat, n.toNat]⟩
  | .wselone y n => ⟨.WSELONE, none, [y.toNat, n.toNat]⟩
  | .lutrd v k => ⟨.LUTRD, none, [v.toNat, k.toNat]⟩
  | .fvnew n => ⟨.FVNEW, none, [n.toNat]⟩
  | .fvputw i v => ⟨.FVPUTW, none, [i.toNat, v.toNat]⟩
  | .fvset p => ⟨.FVSET, none, [p.toNat]⟩
  | .fvunset p => ⟨.FVUNSET, none, [p.toNat]⟩
  | .fvacc p => ⟨.FVACC, none, [p.toNat]⟩
  | .fvcnt => ⟨.FVCNT, none, []⟩
  | .fvlen => ⟨.FVLEN, none, []⟩
  | .fvext p len => ⟨.FVEXT, none, [p.toNat, len.toNat]⟩
  | .bld => ⟨.BLD, none, []⟩
  | .bldp => ⟨.BLDP, none, []⟩
  | .precomp => ⟨.PRECOMP, none, []⟩
  | .locate p => ⟨.LOCATE, none, [p.toNat]⟩
  | .acc p => ⟨.ACC, none, [p.toNat]⟩
  | .set p => ⟨.SET, none, [p.toNat]⟩
  | .rank alpha p => ⟨.RANK, some alpha, [p.toNat]⟩
  | .sel alpha n => ⟨.SEL, some alpha, [n.toNat]⟩
  | .ovh => ⟨.OVH, none, []⟩
  | .size => ⟨.SIZE, none, []⟩

/-- What a pseudo-instruction expands to (R76). -/
def expandPseudo : PseudoLine → AsmLine
  | .access p => ⟨.ACC, none, [p]⟩
  | .rank alpha p => ⟨.RANK, some alpha, [p]⟩
  | .select alpha n => ⟨.SEL, some alpha, [n]⟩

/-! ### Text

Where R75 and R76 are silent (blanks, letter case of digits, empty lines): DESIGN CHOICE (assumption 15);
unsafe for claims about program text only. -/

/-- The spelling of a mnemonic (R64). -/
def spelling : Mnemonic → String
  | .WSET => "WSET" | .WACC => "WACC" | .WCNT => "WCNT" | .WRANK => "WRANK" | .WSEL => "WSEL"
  | .WSELONE => "WSELONE" | .LUTRD => "LUTRD" | .FVNEW => "FVNEW" | .FVPUTW => "FVPUTW"
  | .FVSET => "FVSET" | .FVUNSET => "FVUNSET" | .FVACC => "FVACC" | .FVCNT => "FVCNT"
  | .FVLEN => "FVLEN" | .FVEXT => "FVEXT" | .BLD => "BLD" | .BLDP => "BLDP"
  | .PRECOMP => "PRECOMP" | .LOCATE => "LOCATE" | .ACC => "ACC" | .SET => "SET"
  | .RANK => "RANK" | .SEL => "SEL" | .OVH => "OVH" | .SIZE => "SIZE"

/-- The mnemonics of the opcode table. -/
def mnemonics : List Mnemonic := opcodeTable.map OpcodeRow.mnemonic

/-- The mnemonic that is spelled so, upper case. -/
def mnemonicOf (cs : List Char) : Option Mnemonic := mnemonics.find? fun m => (spelling m).toList == cs

/-- White space inside a line. -/
def isBlank (c : Char) : Bool := c == ' ' || c == '\t'

/-- The text without the white space at its two ends. -/
def trim (cs : List Char) : List Char := ((cs.dropWhile isBlank).reverse.dropWhile isBlank).reverse

/-- The parts of a text between the characters that `sep` picks. -/
def splitAtEach (sep : Char → Bool) : List Char → List (List Char)
  | [] => [[]]
  | c :: rest =>
    if sep c then [] :: splitAtEach sep rest
    else
      match splitAtEach sep rest with
      | [] => [[c]]
      | part :: parts => (c :: part) :: parts

/-- The value of a digit in a base up to 16. -/
def digit (base : Nat) (c : Char) : Option Nat :=
  let value :=
    if '0' ≤ c ∧ c ≤ '9' then c.toNat - '0'.toNat
    else if 'a' ≤ c ∧ c ≤ 'f' then c.toNat - 'a'.toNat + 10
    else if 'A' ≤ c ∧ c ≤ 'F' then c.toNat - 'A'.toNat + 10
    else 16
  if value < base then some value else none

/-- A number written with at least one digit, most significant digit first. -/
def digits (base : Nat) : List Char → Option Nat
  | [] => none
  | cs => cs.foldl (fun acc c => do return (← acc) * base + (← digit base c)) (some 0)

/-- An operand: decimal or `0x` hexadecimal (R75). -/
def number : List Char → Option Nat
  | '0' :: 'x' :: cs => digits 16 cs
  | cs => digits 10 cs

/-- The suffix of a mnemonic: none, `.0` or `.1` (R75). -/
def suffix : List (List Char) → Option (Option Bool)
  | [] => some none
  | [['0']] => some (some false)
  | [['1']] => some (some true)
  | _ => none

/-- The words `true` and `false` of a pseudo-instruction (R76). -/
def boolWord (cs : List Char) : Option Bool :=
  if cs = "true".toList then some true else if cs = "false".toList then some false else none

/-- A line `MNEMONIC[.alpha] [A [, B]]` (R75). -/
def parseAsm (cs : List Char) : Option AsmLine := do
  let opcode := cs.takeWhile (fun c => !isBlank c)
  let rest := trim (cs.dropWhile (fun c => !isBlank c))
  let parts := splitAtEach (· == '.') opcode
  let mnemonic ← mnemonicOf (parts.headD [])
  let alpha ← suffix parts.tail
  let operands ← if rest = [] then some [] else
    (splitAtEach (· == ',') rest).mapM (fun part => number (trim part))
  return { mnemonic := mnemonic, alpha := alpha, operands := operands }

/-- A line `access p`, `rank true|false p` or `select true|false n` (R76). -/
def parsePseudo (cs : List Char) : Option PseudoLine := do
  match (splitAtEach isBlank cs).filter (fun part => part ≠ []) with
  | [name, p] => if name = "access".toList then return .access (← number p) else none
  | [name, alpha, n] =>
    if name = "rank".toList then return .rank (← boolWord alpha) (← number n)
    else if name = "select".toList then return .select (← boolWord alpha) (← number n)
    else none
  | _ => none

/-- What a line of text stands for. -/
inductive ParsedLine where
  /-- a blank line or a comment -/
  | nothing
  | command (i : Instr)
  /-- not a line of the notation -/
  | rejected
  deriving DecidableEq, Repr

/-- A line of text; the rest of a line after `;` is a comment (R75). -/
def parseLine (line : String) : ParsedLine :=
  let cs := trim (line.toList.takeWhile (· != ';'))
  if cs = [] then .nothing
  else
    match (parseAsm cs <|> (parsePseudo cs).map expandPseudo).bind assemble with
    | some i => .command i
    | none => .rejected

/-- The commands of a program's lines, top to bottom, if every line is accepted (R75). -/
def assembleProgram : List String → Option (List Instr)
  | [] => some []
  | line :: rest =>
    match parseLine line with
    | .nothing => assembleProgram rest
    | .command i => (assembleProgram rest).map (i :: ·)
    | .rejected => none

/-- The host presents a program's commands in order before anything else it does (R21, R75). -/
def State.offer (s : State) (program : List Instr) : State :=
  { s with inbox := program.map (fun i => .command (encode i)) ++ s.inbox }

end Sys2Proof.Machine
end

