-- ==== Sys2Proof/Safety.lean ====
section
/-! DEFINITION. What counts as a safe run, in the terms the claims use: the logical content of the two
vectors and the reference functions of spec/45_properties.md R170, R171; the invariants of
spec/10_state.md R30, R31; the table of failures of spec/60_exceptions.md R205; the faulted states of
R196.  No command computes any of it. -/

namespace Sys2Proof.Machine

/-! ### Logical content and reference functions -/

/-- Bit `p` of the Flat Vector: bit `p mod 64` of word `p div 64` (R24, R41). -/
def Engine.fvBit (e : Engine) (p : Nat) : Bool := (e.fvWord (p / 64)).getLsbD (p % 64)

/-- `bits[p]`, the logical content of the Indexed Vector (R170). -/
def Engine.bit (e : Engine) (p : Nat) : Bool :=
  (e.pay (locate p).block (locate p).word).getLsbD (locate p).bit

/-- `RankRef(bits, a, p)`: how many positions `q < p` hold `a` (R171). -/
def rankRef (bits : Nat → Bool) (a : Bool) (p : Nat) : Nat := Nat.count (fun q => bits q = a) p

/-- `q = SelectRef(bits, a, n)` for a sequence of `len` bits: `q` holds `a` and `n - 1` positions before
it do (R171). -/
def IsSelectRef (bits : Nat → Bool) (len : Nat) (a : Bool) (n q : Nat) : Prop :=
  q < len ∧ bits q = a ∧ rankRef bits a q + 1 = n

/-! ### Invariants -/

/-- What holds of the architectural state between commands. -/
structure Engine.Inv (cfg : Config) (e : Engine) : Prop where
  /-- the staging buffer is in canonical form -/
  fv_wf : e.fv.wf = true
  /-- the block store is in canonical form -/
  blk_wf : e.blk.wf = true
  /-- `FVN ≤ MAXW` (R31 (c)) -/
  fvn_le : e.fvn.toNat ≤ cfg.maxW
  /-- the staging buffer has `MAXW` words (R41) -/
  fv_inside : ∀ a, cfg.maxW ≤ a → e.fv.read a = 0#64
  /-- the block store has `MAXB` lines of eight slots (R42) -/
  blk_inside : ∀ a, 8 * cfg.maxB ≤ a → e.blk.read a = 0#64
  /-- `LEN = 64 n` with `n ≤ MAXW`, and `NBLK = ceil (n / 7)` (R31 (a), R35) -/
  size : ∃ n, n ≤ cfg.maxW ∧ e.len.toNat = 64 * n ∧ e.nblk.toNat = (n + 6) / 7
  /-- every padding word is zero (R31 (b)) -/
  padding : ∀ b w, b < e.nblk.toNat → w < 7 → e.len.toNat ≤ 448 * b + 64 * w → e.pay b w = 0#64
  /-- the PreSum invariant (R30) -/
  presum_indexed : e.idx = .indexed → ∀ b, b < e.nblk.toNat →
    (e.presum b).toNat = sumBelow (storedOnes e.blk) b
  /-- the counters are what BLD left until PRECOMP (R30, R142) -/
  presum_unindexed : e.idx = .unindexed → ∀ b, b < e.nblk.toNat → e.presum b = 0#64
  /-- no table inconsistency has been seen (R88) -/
  not_fatal : e.fatal = false

/-- What holds of the machine in every reachable state: the parameter is legal, and the engine's
invariants hold. -/
structure State.Inv (s : State) : Prop where
  cfg_valid : s.cfg.Valid
  eng_inv : s.eng.Inv s.cfg

/-- A state that a claim treats as faulted: "never final, never a success" (R196). -/
def State.Faulted (s : State) : Prop := s.eng.fatal = true

/-! ### Which command fails, and how -/

/-- The commands that leave the architectural state as it is (R170). -/
def readOnly : Instr → Bool
  | .wset _ _ | .wacc _ _ | .wcnt _ | .wrank _ _ _ | .wsel _ _ _ | .wselone _ _ | .lutrd _ _
  | .fvacc _ | .fvcnt | .fvlen | .fvext _ _
  | .locate _ | .acc _ | .rank _ _ | .sel _ _ | .ovh | .size => true
  | .fvnew _ | .fvputw _ _ | .fvset _ | .fvunset _ | .bld | .bldp | .precomp | .set _ => false

/-- The status if the condition holds, else what comes after it in the order of R192. -/
def failsIf (condition : Prop) [Decidable condition] (st : Status) (next : Option Status) :
    Option Status :=
  if condition then some st else next

/-- The table of R205: the status a command fails with in a state with `FATAL = 0`, by conditions on
the operands and the state alone, the first that holds in the order of R192. -/
def failure (i : Instr) (s : State) : Option Status :=
  let e := s.eng
  match i with
  | .wset _ p => failsIf (64 ≤ p.toNat) .errRange none
  | .wacc _ p => failsIf (64 ≤ p.toNat) .errRange none
  | .wcnt _ => none
  | .wrank _ _ n => failsIf (64 < n.toNat) .errRange none
  | .wsel alpha x n =>
    failsIf (n = 0#64) .errNzero <| failsIf (rankRef x.getLsbD alpha 64 < n.toNat) .errNotFound none
  | .wselone y n =>
    failsIf (n = 0#64) .errNzero <| failsIf (rankRef y.getLsbD true 64 < n.toNat) .errNotFound none
  | .lutrd v k => failsIf (255 < v.toNat ∨ 7 < k.toNat) .errRange none
  | .fvnew n => failsIf (s.cfg.maxW < n.toNat) .errCap none
  | .fvputw j _ => failsIf (e.fvn.toNat ≤ j.toNat) .errRange none
  | .fvset p => failsIf (64 * e.fvn.toNat ≤ p.toNat) .errRange none
  | .fvunset p => failsIf (64 * e.fvn.toNat ≤ p.toNat) .errRange none
  | .fvacc p => failsIf (64 * e.fvn.toNat ≤ p.toNat) .errRange none
  | .fvcnt => none
  | .fvlen => none
  | .fvext p len => failsIf (64 < len.toNat ∨ 64 * e.fvn.toNat < p.toNat + len.toNat) .errRange none
  | .bld => none
  | .bldp => none
  | .precomp => none
  | .locate p => failsIf (e.len.toNat ≤ p.toNat) .errRange none
  | .acc p => failsIf (e.len.toNat ≤ p.toNat) .errRange none
  | .set p => failsIf (e.idx = .indexed) .errState <| failsIf (e.len.toNat ≤ p.toNat) .errRange none
  | .rank _ p =>
    failsIf (e.idx = .unindexed) .errState <| failsIf (e.len.toNat ≤ p.toNat) .errRange none
  | .sel alpha n =>
    failsIf (e.idx = .unindexed) .errState <| failsIf (n = 0#64) .errNzero <|
      failsIf (rankRef e.bit alpha e.len.toNat < n.toNat) .errNotFound none
  | .ovh => none
  | .size => none

end Sys2Proof.Machine
end

