-- ==== Sys2Proof/Certificates/Slice0/Obligations.lean ====
section
/-! DEFINITION. What the model claims of RSE, for the provers: one `def Obligations.<Name> : Prop` a claim.
The rule of spec/ that each formalises stands in its docstring.  "In a state with `FATAL = 0`" is the
premise every claim about RSE takes (spec/60_exceptions.md R196). -/

open Sys2Proof Sys2Proof.Machine

/-! ### Encoding -/

/-- Decoding the encoding of any command gives the command back, with every operand at every value. -/
def Obligations.DecodeOfEncodeIsTheCommand : Prop :=
  ∀ i : Instr, decode (encode i) = .ok i

/-- A word that decodes is the encoding of what it decodes to: each command has one word. -/
def Obligations.EncodeOfDecodeIsTheWord : Prop :=
  ∀ (c : CommandWord) (i : Instr), decode c = .ok i → encode i = c

/-- The decoder accepts exactly the words that match a row of the opcode table (R64). -/
def Obligations.DecoderAcceptsExactlyTheTable : Prop :=
  ∀ c : CommandWord, (∃ i, decode c = .ok i) ↔ c.wellFormed = true

/-- No word matches two rows of the opcode table. -/
def Obligations.OpcodeRowsNeverOverlap : Prop :=
  ∀ (c : CommandWord) (r r' : OpcodeRow), r ∈ opcodeTable → r' ∈ opcodeTable →
    r.accepts c = true → r'.accepts c = true → r = r'

/-- R67: a word with a reserved `OP`, or with a listed `OP` and a nonzero value in a field that R64 marks
"—", is answered `ERR_OPCODE` with `VAL = 0` and changes no state; the all-zero word is one of them. -/
def Obligations.IllegalWordsAnswerErrOpcode : Prop :=
  (∀ (s : State) (c : CommandWord) (rest : List HostEvent),
    s.eng.fatal = false → s.inbox = .command c :: rest →
    (c.op.toNat ≤ 0x0F ∨ c.op.toNat = 0x13 ∨ (0x19 ≤ c.op.toNat ∧ c.op.toNat ≤ 0x1F) ∨
      (0x21 ≤ c.op.toNat ∧ c.op.toNat ≤ 0x2F) ∨ (0x38 ≤ c.op.toNat ∧ c.op.toNat ≤ 0x3F) ∨
      (0x43 ≤ c.op.toNat ∧ c.op.toNat ≤ 0x4F) ∨ c.op.toNat = 0x53 ∨ 0x5A ≤ c.op.toNat ∨
      (c.op.toNat ∈ [0x12, 0x30, 0x32, 0x33, 0x34, 0x50, 0x51, 0x52, 0x54, 0x55, 0x56, 0x57] ∧
        c.b ≠ 0#64) ∨
      (c.op.toNat ∈ [0x35, 0x36, 0x40, 0x41, 0x42, 0x58, 0x59] ∧ (c.a ≠ 0#64 ∨ c.b ≠ 0#64))) →
    step s = .next (({ s with inbox := rest } : State).respond s.eng .errOpcode 0#64)) ∧
  CommandWord.op 0#136 = 0x00#8

/-- Words written out from R61, R64 and R75 decode to the commands they stand for, one or more a family
(a sanity statement). -/
def Obligations.WrittenOutWordsDecode : Prop :=
  decode 0x1500000000000000B60000000000000005#136 = .ok (.wrank true 0xB6#64 5#64) ∧
  decode 0x1600000000000000B60000000000000002#136 = .ok (.wsel false 0xB6#64 2#64) ∧
  decode 0x2000000000000000B60000000000000002#136 = .ok (.lutrd 0xB6#64 2#64) ∧
  decode 0x37000000000000003C0000000000000008#136 = .ok (.fvext 60#64 8#64) ∧
  decode 0x4100000000000000000000000000000000#136 = .ok .bldp ∧
  decode 0x5600000000000000020000000000000000#136 = .ok (.sel false 2#64) ∧
  decode 0x1200000000000000050000000000000001#136 = .error (.nonzeroUnusedField 0x12#8) ∧
  decode 0x5300000000000000000000000000000000#136 = .error (.reservedOpcode 0x53#8)

/-- R75 (the tokenised form): the line that writes a command assembles to that command. -/
def Obligations.AssembleOfDisassembleIsTheCommand : Prop :=
  ∀ i : Instr, assemble (disassemble i) = some i

/-- R62 and R190: the response word carries the status code in bits 71 to 64 and the value in bits 63 to
0, and no two statuses share a code. -/
def Obligations.ResponseWordCarriesCodeAndValue : Prop :=
  (∀ r : Response, r.word.extractLsb' 64 8 = r.st.code ∧ r.word.extractLsb' 0 64 = r.val) ∧
  (∀ st st' : Status, st.code = st'.code → st = st')

/-! ### Steps and ports -/

/-- A step with a command offered runs the decoded command on the state without the offer; the encoding
of a command runs that command. -/
def Obligations.StepRunsTheDecodedCommand : Prop :=
  (∀ (s : State) (c : CommandWord) (rest : List HostEvent) (i : Instr),
    s.inbox = .command c :: rest → decode c = .ok i →
    step s = exec i { s with inbox := rest }) ∧
  (∀ (s : State) (rest : List HostEvent) (i : Instr),
    s.inbox = .command (encode i) :: rest → step s = exec i { s with inbox := rest })

/-- R60, R51: whatever word is accepted, it is answered by exactly one response, which then waits on the
port, and every earlier response has been delivered before it, in order; the parameter is unchanged.
That a response which still waits is delivered by the acceptance is the model's choice (log entry 4,
DESIGN CHOICE): R60 accepts no command while one waits.  The delivered responses and the host's events
are the model's own fields (log entry 13). -/
def Obligations.EveryCommandGetsOneResponseInOrder : Prop :=
  ∀ (s t : State) (c : CommandWord) (rest : List HostEvent),
    s.inbox = .command c :: rest → step s = .next t →
    t.inbox = rest ∧ t.cfg = s.cfg ∧ t.delivered = s.delivered ++ s.rsp.toList ∧
      ∃ r, t.rsp = some r

/-- Taking a response delivers it and touches nothing else; with nothing offered the engine keeps all
state (R204); and accepting a command while a response waits is the host taking that response and then
the same command (R60, the model's convention of assumption 4). -/
def Obligations.PortsDeliverAndIdle : Prop :=
  (∀ s : State, s.inbox = [] → step s = .next s) ∧
  (∀ (s : State) (rest : List HostEvent), s.inbox = .takeResponse :: rest →
    ∃ t, step s = .next t ∧ t.eng = s.eng ∧ t.cfg = s.cfg ∧ t.inbox = rest ∧ t.rsp = none ∧
      t.delivered = s.delivered ++ s.rsp.toList) ∧
  (∀ (s t : State) (c : CommandWord) (rest : List HostEvent), s.inbox = .command c :: rest →
    step { s with inbox := .takeResponse :: .command c :: rest } = .next t → step t = step s)

/-- R210, R22: the reset values, for every capacity, and the same after a reset event, which also drops
a response that waits.  The second clause equates the whole engine with the fresh reset engine, `FV` and
`BLK` included, whose content R210 leaves unspecified: that is the model's choice (log entries 2 and 5,
DESIGN CHOICE).  So is keeping the host's later events and the responses taken (log entry 5). -/
def Obligations.ResetGivesTheResetValues : Prop :=
  (∀ cfg : Config, let e := (State.resetWith cfg).eng
    e.fvn = 0#64 ∧ e.nblk = 0#64 ∧ e.len = 0#64 ∧ e.idx = .unindexed ∧ e.fatal = false ∧
      (State.resetWith cfg).cmdReady = true ∧ (State.resetWith cfg).rspValid = false) ∧
  (∀ (s : State) (rest : List HostEvent), s.inbox = .reset :: rest →
    ∃ t, step s = .next t ∧ t.eng = (State.resetWith s.cfg).eng ∧ t.cfg = s.cfg ∧
      t.rsp = none ∧ t.inbox = rest ∧ t.delivered = s.delivered)

/-- R221: nothing is left undefined; every step of every state has a next state. -/
def Obligations.EveryStepHasANextState : Prop :=
  ∀ s : State, ∃ t, step s = .next t

/-! ### Errors and the fatal latch -/

/-- R196, R66 step 1: once `FATAL` is latched every command word, legal or not, is answered `ERR_FATAL`
and changes nothing, and only reset clears the latch. -/
def Obligations.LatchedFatalStopsEverythingButReset : Prop :=
  (∀ (s : State) (c : CommandWord) (rest : List HostEvent), s.eng.fatal = true →
    s.inbox = .command c :: rest →
    step s = .next (({ s with inbox := rest } : State).respond s.eng .errFatal 0#64)) ∧
  (∀ (s t : State), s.eng.fatal = true → step s = .next t →
    t.eng.fatal = true ∨ ∃ rest, s.inbox = .reset :: rest)

/-- R88: with the table of R100 no step sets `FATAL`, from any state at all. -/
def Obligations.NoStepSetsFatal : Prop :=
  ∀ s t : State, s.eng.fatal = false → step s = .next t → t.eng.fatal = false

/-- R88, the other half: a table that calls an entry invalid makes SelectOne answer the inconsistency,
whatever the word, so the arm is live in a model that takes the table as an argument; and the constant
table never does. -/
def Obligations.OnlyAWrongTableIsInconsistent : Prop :=
  (∀ (y : Word) (n : Nat), 1 ≤ n → n ≤ popcount y →
    selectOneBy (fun _ _ => { valid := false, pos := 0#3 }) y n = .inconsistent) ∧
  (∀ (y : Word) (n : Nat), 1 ≤ n → selectOne y n ≠ .inconsistent)

/-- R193: an error response carries `VAL = 0` and changes no state, whatever word was accepted, legal or
not; a newly detected `ERR_FATAL` writes `FATAL` and nothing else. -/
def Obligations.ErrorResponsesChangeNothing : Prop :=
  ∀ (s t : State) (c : CommandWord) (rest : List HostEvent) (r : Response),
    s.inbox = .command c :: rest → step s = .next t → t.rsp = some r → r.st ≠ .ok →
    r.val = 0#64 ∧ (t.eng = s.eng ∨ (r.st = .errFatal ∧ t.eng = { s.eng with fatal := true }))

/-- R205 with R192: in a state with the invariants, the status of every command is the one the table
gives, by conditions on the operands and the state alone: `OK` exactly when no condition holds. -/
def Obligations.StatusIsAsTheTableSays : Prop :=
  ∀ (i : Instr) (s : State), s.Inv →
    ∃ t r, exec i s = .next t ∧ t.rsp = some r ∧ r.st = (failure i s).getD .ok

/-- R170: the query commands leave the architectural state as it is, from every state. -/
def Obligations.QueryCommandsLeaveTheState : Prop :=
  ∀ (i : Instr) (s t : State), readOnly i = true → exec i s = .next t → t.eng = s.eng

/-! ### The Word unit -/

/-- R81: WSET. -/
def Obligations.WsetSetsOneBit : Prop :=
  (∀ x p : Word, decode (commandWord 0x10#8 x p) = .ok (.wset x p)) ∧
  ∀ (s : State) (x p : Word), s.eng.fatal = false →
    (64 ≤ p.toNat → exec (.wset x p) s = .next (s.respond s.eng .errRange 0#64)) ∧
    (p.toNat < 64 → ∃ v : Word, exec (.wset x p) s = .next (s.respond s.eng .ok v) ∧
      ∀ k, k < 64 → v.getLsbD k = (decide (k = p.toNat) || x.getLsbD k))

/-- R82: WACC. -/
def Obligations.WaccTestsOneBit : Prop :=
  (∀ x p : Word, decode (commandWord 0x11#8 x p) = .ok (.wacc x p)) ∧
  ∀ (s : State) (x p : Word), s.eng.fatal = false →
    (64 ≤ p.toNat → exec (.wacc x p) s = .next (s.respond s.eng .errRange 0#64)) ∧
    (p.toNat < 64 → exec (.wacc x p) s =
      .next (s.respond s.eng .ok (if x.getLsbD p.toNat then 1#64 else 0#64)))

/-- R83 with R17: WCNT answers the sum of the bits. -/
def Obligations.WcntSumsTheBits : Prop :=
  (∀ x : Word, decode (commandWord 0x12#8 x 0#64) = .ok (.wcnt x)) ∧
  ∀ (s : State) (x : Word), s.eng.fatal = false →
    exec (.wcnt x) s = .next (s.respond s.eng .ok
      (BitVec.ofNat 64 (∑ k ∈ Finset.range 64, (x.getLsbD k).toNat)))

/-- R84: WRANK answers how many of the bits `[0, n)` equal `alpha`; `n = 64` is legal. -/
def Obligations.WrankCountsBelow : Prop :=
  (∀ x n : Word, decode (commandWord 0x14#8 x n) = .ok (.wrank false x n) ∧
    decode (commandWord 0x15#8 x n) = .ok (.wrank true x n)) ∧
  ∀ (s : State) (alpha : Bool) (x n : Word), s.eng.fatal = false →
    (64 < n.toNat → exec (.wrank alpha x n) s = .next (s.respond s.eng .errRange 0#64)) ∧
    (n.toNat ≤ 64 → exec (.wrank alpha x n) s =
      .next (s.respond s.eng .ok (BitVec.ofNat 64 (rankRef x.getLsbD alpha n.toNat))))

/-- R85 with R89: WSEL answers the position that holds `alpha` and has `n - 1` occurrences below it, and
`ERR_NOTFOUND` when the word holds fewer than `n`; `n = 0` is `ERR_NZERO`. -/
def Obligations.WselFindsTheOccurrence : Prop :=
  (∀ x n : Word, decode (commandWord 0x16#8 x n) = .ok (.wsel false x n) ∧
    decode (commandWord 0x17#8 x n) = .ok (.wsel true x n)) ∧
  ∀ (s : State) (alpha : Bool) (x n : Word), s.eng.fatal = false →
    (n = 0#64 → exec (.wsel alpha x n) s = .next (s.respond s.eng .errNzero 0#64)) ∧
    (1 ≤ n.toNat → n.toNat ≤ rankRef x.getLsbD alpha 64 →
      ∃ p, IsSelectRef x.getLsbD 64 alpha n.toNat p ∧
        exec (.wsel alpha x n) s = .next (s.respond s.eng .ok (BitVec.ofNat 64 p))) ∧
    (rankRef x.getLsbD alpha 64 < n.toNat →
      exec (.wsel alpha x n) s = .next (s.respond s.eng .errNotFound 0#64))

/-- R87: WSELONE answers the position of the `n`-th one bit; it is `WSEL.1` under another opcode. -/
def Obligations.WseloneFindsTheOne : Prop :=
  (∀ y n : Word, decode (commandWord 0x18#8 y n) = .ok (.wselone y n)) ∧
  ∀ (s : State) (y n : Word), s.eng.fatal = false →
    (n = 0#64 → exec (.wselone y n) s = .next (s.respond s.eng .errNzero 0#64)) ∧
    (1 ≤ n.toNat → n.toNat ≤ rankRef y.getLsbD true 64 →
      ∃ p, IsSelectRef y.getLsbD 64 true n.toNat p ∧
        exec (.wselone y n) s = .next (s.respond s.eng .ok (BitVec.ofNat 64 p))) ∧
    (rankRef y.getLsbD true 64 < n.toNat →
      exec (.wselone y n) s = .next (s.respond s.eng .errNotFound 0#64)) ∧
    exec (.wselone y n) s = exec (.wsel true y n) s

/-- R179: the word-level properties, through the commands: the two ranks sum to `n`; rank never
decreases; select inverts rank and finds a bit that holds `alpha`, and finds nothing past the total; a
select of zeros is the select of ones of the complement. -/
def Obligations.WordRankAndSelectAgree : Prop :=
  ∀ (s : State) (x : Word), s.eng.fatal = false →
    (∀ n : Word, n.toNat ≤ 64 → ∃ v1 v0 : Word,
      exec (.wrank true x n) s = .next (s.respond s.eng .ok v1) ∧
      exec (.wrank false x n) s = .next (s.respond s.eng .ok v0) ∧
      v1.toNat + v0.toNat = n.toNat) ∧
    (∀ (alpha : Bool) (n n' : Word), n.toNat ≤ n'.toNat → n'.toNat ≤ 64 → ∃ v v' : Word,
      exec (.wrank alpha x n) s = .next (s.respond s.eng .ok v) ∧
      exec (.wrank alpha x n') s = .next (s.respond s.eng .ok v') ∧ v.toNat ≤ v'.toNat) ∧
    (∀ alpha : Bool, ∃ total : Word,
      exec (.wrank alpha x 64#64) s = .next (s.respond s.eng .ok total) ∧
      (∀ n : Word, 1 ≤ n.toNat → n.toNat ≤ total.toNat → ∃ q : Word,
        exec (.wsel alpha x n) s = .next (s.respond s.eng .ok q) ∧
        exec (.wacc x q) s = .next (s.respond s.eng .ok (if alpha then 1#64 else 0#64)) ∧
        exec (.wrank alpha x (q + 1#64)) s = .next (s.respond s.eng .ok n)) ∧
      (∀ n : Word, total.toNat < n.toNat →
        exec (.wsel alpha x n) s = .next (s.respond s.eng .errNotFound 0#64))) ∧
    (∀ n : Word, exec (.wsel false x n) s = exec (.wsel true (~~~x) n) s)

/-! ### The Lookup Table -/

/-- R102 with R100 and R101: LUTRD answers `8 + j` where bit `j` is the one bit of the byte with exactly
`k` ones below it, and 0 where the byte has at most `k` ones. -/
def Obligations.LutrdReadsTheEntry : Prop :=
  (∀ v k : Word, decode (commandWord 0x20#8 v k) = .ok (.lutrd v k)) ∧
  ∀ (s : State) (v k : Word), s.eng.fatal = false →
    (255 < v.toNat ∨ 7 < k.toNat →
      exec (.lutrd v k) s = .next (s.respond s.eng .errRange 0#64)) ∧
    (v.toNat ≤ 255 → k.toNat ≤ 7 → ∃ val : Word,
      exec (.lutrd v k) s = .next (s.respond s.eng .ok val) ∧
      (k.toNat < rankRef v.getLsbD true 8 → ∃ j, j < 8 ∧ v.getLsbD j = true ∧
        rankRef v.getLsbD true j = k.toNat ∧ val.toNat = 8 + j) ∧
      (rankRef v.getLsbD true 8 ≤ k.toNat → val = 0#64))

/-- R103: the table-correctness property, with the stronger statement that the position holds a one. -/
def Obligations.TableIsCorrect : Prop :=
  ∀ (v : BitVec 8) (k1 : Nat), 1 ≤ k1 → k1 ≤ 8 →
    (k1 ≤ popcount v → (lut v (k1 - 1)).valid = true ∧
      rankRef v.getLsbD true ((lut v (k1 - 1)).pos.toNat + 1) = k1 ∧
      v.getLsbD (lut v (k1 - 1)).pos.toNat = true) ∧
    (popcount v < k1 → (lut v (k1 - 1)).valid = false)

/-! ### The Flat Vector -/

/-- R111: FVNEW.  That a word at or past `n` keeps its value is the model's choice (log entry 2, DESIGN
CHOICE): the spec allows any value there, and no run sees it. -/
def Obligations.FvnewMakesZeroWords : Prop :=
  (∀ n : Word, decode (commandWord 0x30#8 n 0#64) = .ok (.fvnew n)) ∧
  ∀ (s : State) (n : Word), s.eng.fatal = false →
    (s.cfg.maxW < n.toNat → exec (.fvnew n) s = .next (s.respond s.eng .errCap 0#64)) ∧
    (n.toNat ≤ s.cfg.maxW → ∃ e : Engine, exec (.fvnew n) s = .next (s.respond e .ok 0#64) ∧
      e.fvn = n ∧ (∀ i, i < n.toNat → e.fvWord i = 0#64) ∧
      (∀ i, n.toNat ≤ i → e.fvWord i = s.eng.fvWord i) ∧
      e.nblk = s.eng.nblk ∧ e.len = s.eng.len ∧ e.idx = s.eng.idx ∧ e.fatal = s.eng.fatal ∧
      e.blk = s.eng.blk)

/-- R112: FVPUTW. -/
def Obligations.FvputwWritesOneWord : Prop :=
  (∀ i v : Word, decode (commandWord 0x31#8 i v) = .ok (.fvputw i v)) ∧
  ∀ (s : State) (i v : Word), s.Inv →
    (s.eng.fvn.toNat ≤ i.toNat →
      exec (.fvputw i v) s = .next (s.respond s.eng .errRange 0#64)) ∧
    (i.toNat < s.eng.fvn.toNat → ∃ e : Engine,
      exec (.fvputw i v) s = .next (s.respond e .ok 0#64) ∧
      e.fvWord i.toNat = v ∧ (∀ j, j ≠ i.toNat → e.fvWord j = s.eng.fvWord j) ∧
      e.fvn = s.eng.fvn ∧ e.nblk = s.eng.nblk ∧ e.len = s.eng.len ∧ e.idx = s.eng.idx ∧
      e.fatal = s.eng.fatal ∧ e.blk = s.eng.blk)

/-- R113: FVSET. -/
def Obligations.FvsetSetsOneBit : Prop :=
  (∀ p : Word, decode (commandWord 0x32#8 p 0#64) = .ok (.fvset p)) ∧
  ∀ (s : State) (p : Word), s.Inv →
    (64 * s.eng.fvn.toNat ≤ p.toNat →
      exec (.fvset p) s = .next (s.respond s.eng .errRange 0#64)) ∧
    (p.toNat < 64 * s.eng.fvn.toNat → ∃ e : Engine,
      exec (.fvset p) s = .next (s.respond e .ok 0#64) ∧
      (∀ q, e.fvBit q = (decide (q = p.toNat) || s.eng.fvBit q)) ∧
      (∀ j, j ≠ p.toNat / 64 → e.fvWord j = s.eng.fvWord j) ∧
      e.fvn = s.eng.fvn ∧ e.nblk = s.eng.nblk ∧ e.len = s.eng.len ∧ e.idx = s.eng.idx ∧
      e.fatal = s.eng.fatal ∧ e.blk = s.eng.blk)

/-- R114: FVUNSET. -/
def Obligations.FvunsetClearsOneBit : Prop :=
  (∀ p : Word, decode (commandWord 0x33#8 p 0#64) = .ok (.fvunset p)) ∧
  ∀ (s : State) (p : Word), s.Inv →
    (64 * s.eng.fvn.toNat ≤ p.toNat →
      exec (.fvunset p) s = .next (s.respond s.eng .errRange 0#64)) ∧
    (p.toNat < 64 * s.eng.fvn.toNat → ∃ e : Engine,
      exec (.fvunset p) s = .next (s.respond e .ok 0#64) ∧
      (∀ q, e.fvBit q = (decide (q ≠ p.toNat) && s.eng.fvBit q)) ∧
      (∀ j, j ≠ p.toNat / 64 → e.fvWord j = s.eng.fvWord j) ∧
      e.fvn = s.eng.fvn ∧ e.nblk = s.eng.nblk ∧ e.len = s.eng.len ∧ e.idx = s.eng.idx ∧
      e.fatal = s.eng.fatal ∧ e.blk = s.eng.blk)

/-- R115: FVACC. -/
def Obligations.FvaccReadsOneBit : Prop :=
  (∀ p : Word, decode (commandWord 0x34#8 p 0#64) = .ok (.fvacc p)) ∧
  ∀ (s : State) (p : Word), s.eng.fatal = false →
    (64 * s.eng.fvn.toNat ≤ p.toNat →
      exec (.fvacc p) s = .next (s.respond s.eng .errRange 0#64)) ∧
    (p.toNat < 64 * s.eng.fvn.toNat →
      exec (.fvacc p) s =
        .next (s.respond s.eng .ok (if s.eng.fvBit p.toNat then 1#64 else 0#64)))

/-- R116: FVCNT answers the one bits of the whole sequence. -/
def Obligations.FvcntCountsAllOnes : Prop :=
  decode (commandWord 0x35#8 0#64 0#64) = .ok .fvcnt ∧
  ∀ s : State, s.eng.fatal = false →
    exec .fvcnt s = .next (s.respond s.eng .ok
      (BitVec.ofNat 64 (rankRef s.eng.fvBit true (64 * s.eng.fvn.toNat))))

/-- R117: FVLEN answers `64 × FVN`, as a number: nothing wraps under the capacity (R12). -/
def Obligations.FvlenIsTheBitLength : Prop :=
  decode (commandWord 0x36#8 0#64 0#64) = .ok .fvlen ∧
  ∀ s : State, s.Inv → ∃ v : Word,
    exec .fvlen s = .next (s.respond s.eng .ok v) ∧ v.toNat = 64 * s.eng.fvn.toNat

/-- R118: bit `k` of FVEXT's answer is bit `p + k` of the Flat Vector for `k < len` and 0 above; a window
longer than 64 or past the end is refused. -/
def Obligations.FvextExtractsTheWindow : Prop :=
  (∀ p len : Word, decode (commandWord 0x37#8 p len) = .ok (.fvext p len)) ∧
  ∀ (s : State) (p len : Word), s.eng.fatal = false →
    (64 < len.toNat ∨ 64 * s.eng.fvn.toNat < p.toNat + len.toNat →
      exec (.fvext p len) s = .next (s.respond s.eng .errRange 0#64)) ∧
    (len.toNat ≤ 64 → p.toNat + len.toNat ≤ 64 * s.eng.fvn.toNat → ∃ v : Word,
      exec (.fvext p len) s = .next (s.respond s.eng .ok v) ∧
      ∀ k, k < 64 → v.getLsbD k = (decide (k < len.toNat) && s.eng.fvBit (p.toNat + k)))

/-- R110: no Flat Vector command touches the Indexed Vector, from any state, and none depends on the
lifecycle: from states that differ in the Indexed Vector alone it answers the same. -/
def Obligations.FlatVectorIsIndependentOfTheIndex : Prop :=
  ∀ (i : Instr) (s s' t t' : State),
    ((∃ n, i = .fvnew n) ∨ (∃ j v, i = .fvputw j v) ∨ (∃ p, i = .fvset p) ∨
      (∃ p, i = .fvunset p) ∨ (∃ p, i = .fvacc p) ∨ i = .fvcnt ∨ i = .fvlen ∨
      (∃ p len, i = .fvext p len)) →
    exec i s = .next t → exec i s' = .next t' →
    (t.eng.blk = s.eng.blk ∧ t.eng.nblk = s.eng.nblk ∧ t.eng.len = s.eng.len ∧
      t.eng.idx = s.eng.idx) ∧
    (s'.cfg = s.cfg → s'.eng.fvn = s.eng.fvn → s'.eng.fv = s.eng.fv →
      s'.eng.fatal = s.eng.fatal →
      t'.rsp = t.rsp ∧ t'.eng.fvn = t.eng.fvn ∧ t'.eng.fv = t.eng.fv)

/-! ### Building the Indexed Vector -/

/-- R131: BLD.  That a slot past the last block keeps its value is the model's choice (log entry 2,
DESIGN CHOICE): the spec allows any value there, and no run sees it. -/
def Obligations.BldCopiesAndClearsCounters : Prop :=
  decode (commandWord 0x40#8 0#64 0#64) = .ok .bld ∧
  ∀ s : State, s.Inv → ∃ e : Engine, exec .bld s = .next (s.respond e .ok 0#64) ∧
    e.nblk.toNat = (s.eng.fvn.toNat + 6) / 7 ∧ e.len.toNat = 64 * s.eng.fvn.toNat ∧
    e.idx = .unindexed ∧
    (∀ b w, b < e.nblk.toNat → w < 7 → e.pay b w =
      if 7 * b + w < s.eng.fvn.toNat then s.eng.fvWord (7 * b + w) else 0#64) ∧
    (∀ b, b < e.nblk.toNat → e.presum b = 0#64) ∧
    (∀ a, 8 * e.nblk.toNat ≤ a → e.blk.read a = s.eng.blk.read a) ∧
    e.fvn = s.eng.fvn ∧ e.fv = s.eng.fv ∧ e.fatal = s.eng.fatal

/-- R132: BLDP; each counter is the one bits of the Flat Vector strictly before its block.  That a slot
past the last block keeps its value is the model's choice (log entry 2, DESIGN CHOICE): the spec allows
any value there, and no run sees it. -/
def Obligations.BldpCopiesAndCounts : Prop :=
  decode (commandWord 0x41#8 0#64 0#64) = .ok .bldp ∧
  ∀ s : State, s.Inv → ∃ e : Engine, exec .bldp s = .next (s.respond e .ok 0#64) ∧
    e.nblk.toNat = (s.eng.fvn.toNat + 6) / 7 ∧ e.len.toNat = 64 * s.eng.fvn.toNat ∧
    e.idx = .indexed ∧
    (∀ b w, b < e.nblk.toNat → w < 7 → e.pay b w =
      if 7 * b + w < s.eng.fvn.toNat then s.eng.fvWord (7 * b + w) else 0#64) ∧
    (∀ b, b < e.nblk.toNat → (e.presum b).toNat = rankRef s.eng.fvBit true (448 * b)) ∧
    (∀ a, 8 * e.nblk.toNat ≤ a → e.blk.read a = s.eng.blk.read a) ∧
    e.fvn = s.eng.fvn ∧ e.fv = s.eng.fv ∧ e.fatal = s.eng.fatal

/-- R133: PRECOMP; a fresh pass over the payload as it is now, in either lifecycle state. -/
def Obligations.PrecompFillsTheCounters : Prop :=
  decode (commandWord 0x42#8 0#64 0#64) = .ok .precomp ∧
  ∀ s : State, s.Inv → ∃ e : Engine, exec .precomp s = .next (s.respond e .ok 0#64) ∧
    e.idx = .indexed ∧
    (∀ b, b < s.eng.nblk.toNat → (e.presum b).toNat =
      ∑ j ∈ Finset.range b, ∑ w ∈ Finset.range 7, popcount (s.eng.pay j w)) ∧
    (∀ b w, w < 7 → e.pay b w = s.eng.pay b w) ∧
    (∀ a, 8 * s.eng.nblk.toNat ≤ a → e.blk.read a = s.eng.blk.read a) ∧
    e.nblk = s.eng.nblk ∧ e.len = s.eng.len ∧ e.fvn = s.eng.fvn ∧ e.fv = s.eng.fv ∧
    e.fatal = s.eng.fatal

/-- R134: BLDP has the same effect on the state as BLD followed at once by PRECOMP, and after either path
the PreSum invariant of R30 holds. -/
def Obligations.BldpIsBldThenPrecomp : Prop :=
  ∀ s t u : State, s.Inv → exec .bld s = .next t → exec .precomp t = .next u →
    u.Inv ∧ u.eng.idx = .indexed ∧ ∃ v, exec .bldp s = .next v ∧ v.eng = u.eng

/-- R180: after a build, eager or lazy, bit `p` of the Indexed Vector is bit `p` of the Flat Vector. -/
def Obligations.BuildsCopyEveryBit : Prop :=
  ∀ (i : Instr) (s t : State), s.Inv → i = .bld ∨ i = .bldp → exec i s = .next t →
    ∀ p, p < 64 * s.eng.fvn.toNat → t.eng.bit p = s.eng.fvBit p

/-! ### Querying the Indexed Vector -/

/-- R145 with R140: LOCATE. -/
def Obligations.LocateDecomposesThePosition : Prop :=
  (∀ p : Word, decode (commandWord 0x50#8 p 0#64) = .ok (.locate p)) ∧
  ∀ (s : State) (p : Word), s.Inv →
    (s.eng.len.toNat ≤ p.toNat →
      exec (.locate p) s = .next (s.respond s.eng .errRange 0#64)) ∧
    (p.toNat < s.eng.len.toNat → ∃ (v : Word) (b w o : Nat),
      exec (.locate p) s = .next (s.respond s.eng .ok v) ∧
      p.toNat = 448 * b + 64 * w + o ∧ w < 7 ∧ o < 64 ∧ v.toNat = 512 * b + 64 * w + o)

/-- R141: ACC, in both lifecycle states. -/
def Obligations.AccReadsOneBit : Prop :=
  (∀ p : Word, decode (commandWord 0x51#8 p 0#64) = .ok (.acc p)) ∧
  ∀ (s : State) (p : Word), s.eng.fatal = false →
    (s.eng.len.toNat ≤ p.toNat → exec (.acc p) s = .next (s.respond s.eng .errRange 0#64)) ∧
    (p.toNat < s.eng.len.toNat → exec (.acc p) s =
      .next (s.respond s.eng .ok (if s.eng.bit p.toNat then 1#64 else 0#64)))

/-- R142 with R180: SET; refused once indexed; otherwise the bit at `p` becomes 1, every other bit, every
counter and every padding word stays, and so does every slot but the one that holds `p`. -/
def Obligations.SetSetsOneBitBeforeIndexing : Prop :=
  (∀ p : Word, decode (commandWord 0x52#8 p 0#64) = .ok (.set p)) ∧
  ∀ (s : State) (p : Word), s.Inv →
    (s.eng.idx = .indexed → exec (.set p) s = .next (s.respond s.eng .errState 0#64)) ∧
    (s.eng.idx = .unindexed → s.eng.len.toNat ≤ p.toNat →
      exec (.set p) s = .next (s.respond s.eng .errRange 0#64)) ∧
    (s.eng.idx = .unindexed → p.toNat < s.eng.len.toNat → ∃ e : Engine,
      exec (.set p) s = .next (s.respond e .ok 0#64) ∧
      (∀ q, e.bit q = (decide (q = p.toNat) || s.eng.bit q)) ∧
      (∀ a, a ≠ paySlot (locate p.toNat).block (locate p.toNat).word →
        e.blk.read a = s.eng.blk.read a) ∧
      (∀ b, e.presum b = s.eng.presum b) ∧
      e.fvn = s.eng.fvn ∧ e.fv = s.eng.fv ∧ e.nblk = s.eng.nblk ∧ e.len = s.eng.len ∧
      e.idx = s.eng.idx ∧ e.fatal = s.eng.fatal)

/-- R143 and R172: in the indexed state RANK answers the reference count; refused when unindexed, before
the position is looked at, and past the end. -/
def Obligations.RankIsCorrect : Prop :=
  (∀ p : Word, decode (commandWord 0x54#8 p 0#64) = .ok (.rank false p) ∧
    decode (commandWord 0x55#8 p 0#64) = .ok (.rank true p)) ∧
  ∀ (s : State) (alpha : Bool) (p : Word), s.Inv →
    (s.eng.idx = .unindexed →
      exec (.rank alpha p) s = .next (s.respond s.eng .errState 0#64)) ∧
    (s.eng.idx = .indexed → s.eng.len.toNat ≤ p.toNat →
      exec (.rank alpha p) s = .next (s.respond s.eng .errRange 0#64)) ∧
    (s.eng.idx = .indexed → p.toNat < s.eng.len.toNat →
      exec (.rank alpha p) s =
        .next (s.respond s.eng .ok (BitVec.ofNat 64 (rankRef s.eng.bit alpha p.toNat))))

/-- R173 with R146: in the indexed state SEL answers the position the reference function gives, and
`ERR_NOTFOUND` when there is none below `LEN`. -/
def Obligations.SelectIsCorrect : Prop :=
  (∀ n : Word, decode (commandWord 0x56#8 n 0#64) = .ok (.sel false n) ∧
    decode (commandWord 0x57#8 n 0#64) = .ok (.sel true n)) ∧
  ∀ (s : State) (alpha : Bool) (n : Word), s.Inv → s.eng.idx = .indexed → 1 ≤ n.toNat →
    (n.toNat ≤ rankRef s.eng.bit alpha s.eng.len.toNat →
      ∃ q, IsSelectRef s.eng.bit s.eng.len.toNat alpha n.toNat q ∧
        exec (.sel alpha n) s = .next (s.respond s.eng .ok (BitVec.ofNat 64 q))) ∧
    (rankRef s.eng.bit alpha s.eng.len.toNat < n.toNat →
      exec (.sel alpha n) s = .next (s.respond s.eng .errNotFound 0#64))

/-- R144's checks in the order of R192: unindexed is `ERR_STATE` whatever `n` is, then `n = 0` is
`ERR_NZERO`. -/
def Obligations.SelectChecksStateThenZero : Prop :=
  ∀ (s : State) (alpha : Bool) (n : Word), s.eng.fatal = false →
    (s.eng.idx = .unindexed →
      exec (.sel alpha n) s = .next (s.respond s.eng .errState 0#64)) ∧
    (s.eng.idx = .indexed → n = 0#64 →
      exec (.sel alpha n) s = .next (s.respond s.eng .errNzero 0#64))

/-- R174: rank duality. -/
def Obligations.RanksOfOnesAndZerosSumToThePosition : Prop :=
  ∀ (s : State) (p : Word), s.Inv → s.eng.idx = .indexed → p.toNat < s.eng.len.toNat →
    ∃ v1 v0 : Word, exec (.rank true p) s = .next (s.respond s.eng .ok v1) ∧
      exec (.rank false p) s = .next (s.respond s.eng .ok v0) ∧
      v1.toNat + v0.toNat = p.toNat

/-- R175: select inverts rank; at the last position, where RANK is refused, through the reference
function. -/
def Obligations.SelectInvertsRank : Prop :=
  ∀ (s : State) (alpha : Bool) (n : Word), s.Inv → s.eng.idx = .indexed → 1 ≤ n.toNat →
    n.toNat ≤ rankRef s.eng.bit alpha s.eng.len.toNat →
    ∃ q : Word, exec (.sel alpha n) s = .next (s.respond s.eng .ok q) ∧
      exec (.acc q) s = .next (s.respond s.eng .ok (if alpha then 1#64 else 0#64)) ∧
      (q.toNat + 1 < s.eng.len.toNat →
        exec (.rank alpha (q + 1#64)) s = .next (s.respond s.eng .ok n)) ∧
      (q.toNat + 1 = s.eng.len.toNat →
        exec (.rank alpha (q + 1#64)) s = .next (s.respond s.eng .errRange 0#64)) ∧
      rankRef s.eng.bit alpha (q.toNat + 1) = n.toNat

/-- R177: rank never decreases, and from one position to the next it grows by exactly the bit. -/
def Obligations.RankIsMonotone : Prop :=
  ∀ (s : State) (alpha : Bool), s.Inv → s.eng.idx = .indexed →
    (∀ p p' : Word, p.toNat ≤ p'.toNat → p'.toNat < s.eng.len.toNat → ∃ v v' : Word,
      exec (.rank alpha p) s = .next (s.respond s.eng .ok v) ∧
      exec (.rank alpha p') s = .next (s.respond s.eng .ok v') ∧ v.toNat ≤ v'.toNat) ∧
    (∀ p : Word, p.toNat + 1 < s.eng.len.toNat → ∃ v v' : Word,
      exec (.rank alpha p) s = .next (s.respond s.eng .ok v) ∧
      exec (.rank alpha (p + 1#64)) s = .next (s.respond s.eng .ok v') ∧
      v'.toNat = v.toNat + if s.eng.bit p.toNat = alpha then 1 else 0)

/-- R178: rank at position 0 is 0 for both values, and refused where there is no position 0; the first
select is the first occurrence. -/
def Obligations.FirstRankAndFirstSelect : Prop :=
  ∀ (s : State) (alpha : Bool), s.Inv → s.eng.idx = .indexed →
    (s.eng.len = 0#64 → exec (.rank alpha 0#64) s = .next (s.respond s.eng .errRange 0#64)) ∧
    (0 < s.eng.len.toNat →
      exec (.rank alpha 0#64) s = .next (s.respond s.eng .ok 0#64)) ∧
    (1 ≤ rankRef s.eng.bit alpha s.eng.len.toNat →
      ∃ q : Word, exec (.sel alpha 1#64) s = .next (s.respond s.eng .ok q) ∧
        s.eng.bit q.toNat = alpha ∧ ∀ q', q' < q.toNat → s.eng.bit q' ≠ alpha)

/-- R176: after a build the queries on the Indexed Vector answer what the reference functions give on the
Flat Vector it was built from, eagerly or lazily. -/
def Obligations.QueriesAfterABuildMatchTheFlatVector : Prop :=
  ∀ s t : State, s.Inv →
    (exec .bldp s = .next t ∨ ∃ u, exec .bld s = .next u ∧ exec .precomp u = .next t) →
    (∀ (alpha : Bool) (p : Word), p.toNat < 64 * s.eng.fvn.toNat →
      exec (.rank alpha p) t =
        .next (t.respond t.eng .ok (BitVec.ofNat 64 (rankRef s.eng.fvBit alpha p.toNat)))) ∧
    (∀ (alpha : Bool) (n : Word), 1 ≤ n.toNat →
      n.toNat ≤ rankRef s.eng.fvBit alpha (64 * s.eng.fvn.toNat) →
      ∃ q, IsSelectRef s.eng.fvBit (64 * s.eng.fvn.toNat) alpha n.toNat q ∧
        exec (.sel alpha n) t = .next (t.respond t.eng .ok (BitVec.ofNat 64 q)))

/-- R149 (b): on counts that never decrease, the loop of step 1 of SEL finds the one index with every
count below it under `n` and every count at or past it at least `n`, however long the interval. -/
def Obligations.BinarySearchFindsTheLowerBound : Prop :=
  ∀ (count : Nat → Nat) (n blocks : Nat), blocks < 2 ^ 64 →
    (∀ i j, i ≤ j → j < blocks → count i ≤ count j) →
    lowerBound count n 64 0 blocks ≤ blocks ∧
    (∀ i, i < lowerBound count n 64 0 blocks → count i < n) ∧
    (∀ i, lowerBound count n 64 0 blocks ≤ i → i < blocks → n ≤ count i)

/-- R147 and R148: OVH and SIZE, as numbers: nothing wraps under the capacity (R12). -/
def Obligations.OverheadAndSizeAreTheBits : Prop :=
  decode (commandWord 0x58#8 0#64 0#64) = .ok .ovh ∧
  decode (commandWord 0x59#8 0#64 0#64) = .ok .size ∧
  ∀ s : State, s.Inv →
    (∃ v : Word, exec .ovh s = .next (s.respond s.eng .ok v) ∧ v.toNat = 64 * s.eng.nblk.toNat) ∧
    (∃ v : Word, exec .size s = .next (s.respond s.eng .ok v) ∧
      v.toNat = 512 * s.eng.nblk.toNat)

/-! ### The whole machine -/

/-- R29: the transitions of `IDX`, complete: reset, and each command in a state with `FATAL = 0`. -/
def Obligations.LifecycleChangesOnlyByTheTable : Prop :=
  (∀ (s t : State) (rest : List HostEvent), s.inbox = .reset :: rest → step s = .next t →
    t.eng.idx = .unindexed) ∧
  ∀ (i : Instr) (s t : State), s.eng.fatal = false → exec i s = .next t →
    (i = .bld → t.eng.idx = .unindexed) ∧
    (i = .bldp ∨ i = .precomp → t.eng.idx = .indexed) ∧
    (i ≠ .bld → i ≠ .bldp → i ≠ .precomp → t.eng.idx = s.eng.idx) ∧
    (∀ p, i = .set p → s.eng.idx = .indexed → t.eng = s.eng ∧
      t.rsp = some { st := .errState, val := 0#64 })

/-- R32: while indexed, no command but BLD and BLDP writes a payload word, `NBLK` or `LEN`. -/
def Obligations.IndexedContentIsImmutable : Prop :=
  ∀ (i : Instr) (s t : State), s.Inv → s.eng.idx = .indexed → i ≠ .bld → i ≠ .bldp →
    exec i s = .next t →
    (∀ b w, w < 7 → t.eng.pay b w = s.eng.pay b w) ∧ t.eng.nblk = s.eng.nblk ∧
      t.eng.len = s.eng.len

/-- R30, R31 and the canonical form of the stores: every step keeps the invariants.  The canonical form
and the emptiness past the capacity are the model's own (log entry 2, DESIGN CHOICE). -/
def Obligations.EveryStepKeepsTheInvariants : Prop :=
  ∀ s t : State, s.Inv → step s = .next t → t.Inv

/-- The invariants hold after reset, for every legal capacity and so for the reset state. -/
def Obligations.ResetMeetsTheInvariants : Prop :=
  (∀ cfg : Config, cfg.Valid → (State.resetWith cfg).Inv) ∧ State.reset.Inv
end

