-- ==== Sys2Proof/Laws/Bits.lean ====
section
/-! SUPPORT. The laws of the bit primitives: sums, population counts, masks, setting and clearing one bit,
and ranks as counts over positions. -/

namespace Sys2Proof.Machine

/-! ### Sums -/

@[simp] theorem sumBelow_zero (f : Nat → Nat) : sumBelow f 0 = 0 := rfl

theorem sumBelow_succ (f : Nat → Nat) (n : Nat) : sumBelow f (n + 1) = sumBelow f n + f n := rfl

theorem sumBelow_congr {f g : Nat → Nat} {n : Nat} (h : ∀ i, i < n → f i = g i) :
    sumBelow f n = sumBelow g n := by
  induction n with
  | zero => rfl
  | succ n ih => rw [sumBelow_succ, sumBelow_succ, ih fun i hi => h i (by omega), h n (by omega)]

/-- The running sum as a sum of the standard library. -/
theorem sumBelow_eq_sum (f : Nat → Nat) (n : Nat) : sumBelow f n = ∑ i ∈ Finset.range n, f i := by
  induction n with
  | zero => rfl
  | succ n ih => rw [sumBelow_succ, ih, Finset.sum_range_succ]

theorem sumBelow_le {f : Nat → Nat} {n c : Nat} (h : ∀ i, i < n → f i ≤ c) :
    sumBelow f n ≤ n * c := by
  induction n with
  | zero => simp
  | succ n ih =>
    have h1 := ih fun i hi => h i (by omega)
    have h2 := h n (by omega)
    rw [sumBelow_succ, Nat.succ_mul]
    omega

/-! ### Results -/

/-- A number below `2^64` is a result that reads back as itself. -/
theorem result_toNat {n : Nat} (h : n < 2 ^ 64) : (result n).toNat = n := by
  rw [result, BitVec.toNat_ofNat, Nat.mod_eq_of_lt h]

/-! ### Bits -/

/-- Bit `k` of `1 << p` is the bit `p` and no other. -/
theorem getLsbD_one_shiftLeft (p k : Nat) (hp : p < 64) :
    (1#64 <<< p).getLsbD k = decide (k = p) := by
  simp only [BitVec.getLsbD_shiftLeft, BitVec.getLsbD_one]
  by_cases h : k = p
  · subst h; simp [hp]
  · by_cases hkp : k < p
    · simp [h, hkp]
    · simp [h, show k - p ≠ 0 by omega]

theorem getLsbD_wordSet (x : Word) (p k : Nat) (hp : p < 64) :
    (wordSet x p).getLsbD k = (decide (k = p) || x.getLsbD k) := by
  rw [wordSet, BitVec.getLsbD_or, getLsbD_one_shiftLeft p k hp, Bool.or_comm]

theorem getLsbD_wordClear (x : Word) (p k : Nat) (hp : p < 64) :
    (wordClear x p).getLsbD k = (decide (k ≠ p) && x.getLsbD k) := by
  rw [wordClear, BitVec.getLsbD_and, BitVec.getLsbD_not, getLsbD_one_shiftLeft p k hp]
  by_cases hk : k < 64
  · simp [hk, Bool.and_comm]
  · simp [BitVec.getLsbD_of_ge x k (by omega)]

/-- Bit `k` of `mask(n)` is 1 exactly below `n` (R16). -/
theorem getLsbD_mask (n k : Nat) (hn : n ≤ 64) : (mask n).getLsbD k = decide (k < n) := by
  unfold mask
  split
  · next h =>
    have h1 : (1#64 <<< n).toNat = 2 ^ n := by
      rw [BitVec.toNat_shiftLeft, Nat.shiftLeft_eq]
      simp [Nat.mod_eq_of_lt (Nat.pow_lt_pow_right (a := 2) (by omega) h)]
    have h2 : ((1#64 <<< n) - 1#64).toNat = 2 ^ n - 1 := by
      have hpos : 0 < 2 ^ n := Nat.two_pow_pos n
      rw [BitVec.toNat_sub_of_le (by rw [BitVec.le_def, h1]; exact hpos), h1]
      simp
    rw [BitVec.getLsbD, h2, Nat.testBit_two_pow_sub_one]
  · next h =>
    have : n = 64 := by omega
    subst this
    rw [BitVec.getLsbD_allOnes]

/-- Segment `s` holds the bits `8s … 8s + 7` (R45). -/
theorem getLsbD_segment (y : Word) (s j : Nat) :
    (segment y s).getLsbD j = (decide (j < 8) && y.getLsbD (8 * s + j)) := by
  simp [segment]

/-! ### Counting -/

theorem rankRef_zero (bits : Nat → Bool) (a : Bool) : rankRef bits a 0 = 0 := by
  simp [rankRef]

theorem rankRef_succ (bits : Nat → Bool) (a : Bool) (p : Nat) :
    rankRef bits a (p + 1) = rankRef bits a p + if bits p = a then 1 else 0 := by
  simp [rankRef, Nat.count_succ]

theorem rankRef_congr {f g : Nat → Bool} (a : Bool) {p : Nat} (h : ∀ i, i < p → f i = g i) :
    rankRef f a p = rankRef g a p := by
  induction p with
  | zero => simp [rankRef_zero]
  | succ p ih => rw [rankRef_succ, rankRef_succ, ih fun i hi => h i (by omega), h p (by omega)]

/-- A count splits at any position. -/
theorem rankRef_add (bits : Nat → Bool) (a : Bool) (m n : Nat) :
    rankRef bits a (m + n) = rankRef bits a m + rankRef (fun i => bits (m + i)) a n := by
  induction n with
  | zero => simp [rankRef_zero]
  | succ n ih => rw [← Nat.add_assoc, rankRef_succ, rankRef_succ, ih, Nat.add_assoc]

theorem rankRef_mono (bits : Nat → Bool) (a : Bool) {p q : Nat} (h : p ≤ q) :
    rankRef bits a p ≤ rankRef bits a q := by
  obtain ⟨d, rfl⟩ := Nat.exists_eq_add_of_le h
  rw [rankRef_add]; omega

theorem rankRef_le (bits : Nat → Bool) (a : Bool) (p : Nat) : rankRef bits a p ≤ p := by
  induction p with
  | zero => simp [rankRef_zero]
  | succ p ih => rw [rankRef_succ]; split <;> omega

/-- Ones and zeros together are all the positions. -/
theorem rankRef_true_add_false (bits : Nat → Bool) (p : Nat) :
    rankRef bits true p + rankRef bits false p = p := by
  induction p with
  | zero => simp [rankRef_zero]
  | succ p ih => rw [rankRef_succ, rankRef_succ]; cases bits p <;> simp <;> omega

/-- The zeros of a sequence are the ones of its complement. -/
theorem rankRef_not (bits : Nat → Bool) (p : Nat) :
    rankRef (fun i => !bits i) true p = rankRef bits false p := by
  induction p with
  | zero => simp [rankRef_zero]
  | succ p ih => rw [rankRef_succ, rankRef_succ, ih]; cases bits p <;> simp

/-- A count over `k` groups of `w` positions is the sum of the groups' counts. -/
theorem rankRef_mul (bits : Nat → Bool) (a : Bool) (w k : Nat) :
    rankRef bits a (w * k) = sumBelow (fun g => rankRef (fun i => bits (w * g + i)) a w) k := by
  induction k with
  | zero => simp [rankRef_zero]
  | succ k ih => rw [Nat.mul_succ, rankRef_add, ih, sumBelow_succ]

theorem popcount_eq_rankRef {w : Nat} (x : BitVec w) : popcount x = rankRef x.getLsbD true w := rfl

theorem popcount_le {w : Nat} (x : BitVec w) : popcount x ≤ w := rankRef_le _ _ _

@[simp] theorem popcount_zero : popcount 0#64 = 0 := by decide

/-- `WordRank` counts the positions below `n` that hold `alpha` (R84). -/
theorem wordRank_eq_rankRef (alpha : Bool) (x : Word) (n : Nat) (hn : n ≤ 64) :
    wordRank alpha x n = rankRef x.getLsbD alpha n := by
  have hones : popcount (x &&& mask n) = rankRef x.getLsbD true n := by
    have hsplit := rankRef_add (x &&& mask n).getLsbD true n (64 - n)
    rw [Nat.add_sub_cancel' hn] at hsplit
    rw [popcount_eq_rankRef, hsplit]
    have h1 : rankRef (x &&& mask n).getLsbD true n = rankRef x.getLsbD true n :=
      rankRef_congr true fun i hi => by simp [getLsbD_mask n i hn, hi]
    have h2 : rankRef (fun i => (x &&& mask n).getLsbD (n + i)) true (64 - n)
        = rankRef (fun _ => false) true (64 - n) :=
      rankRef_congr true fun i _ => by simp [getLsbD_mask n (n + i) hn]
    have h3 : ∀ m, rankRef (fun _ => false) true m = 0 := by
      intro m
      induction m with
      | zero => simp [rankRef_zero]
      | succ m ih => rw [rankRef_succ, ih]; simp
    rw [h1, h2, h3, Nat.add_zero]
  have hsum := rankRef_true_add_false x.getLsbD n
  cases alpha <;> simp only [wordRank, hones] <;> simp
  omega

theorem wordCount_eq_rankRef (alpha : Bool) (x : Word) :
    wordCount alpha x = rankRef x.getLsbD alpha 64 := by
  have hsum := rankRef_true_add_false x.getLsbD 64
  cases alpha <;> simp only [wordCount, popcount_eq_rankRef] <;> simp
  omega

/-! ### Positions -/

/-- `p = 448 b + 64 w + o` for `(b, w, o) = Locate(p)` (R140). -/
theorem locate_inverse (p : Nat) :
    448 * (locate p).block + 64 * (locate p).word + (locate p).bit = p := by
  simp only [locate]; omega

theorem locate_word_lt (p : Nat) : (locate p).word < 7 := Nat.mod_lt _ (by omega)

theorem locate_bit_lt (p : Nat) : (locate p).bit < 64 := Nat.mod_lt _ (by omega)

/-- The decomposition of `448 b + 64 w + o` is `(b, w, o)` (R140). -/
theorem locate_of_parts {b w o : Nat} (hw : w < 7) (ho : o < 64) :
    locate (448 * b + 64 * w + o) = { block := b, word := w, bit := o } := by
  simp only [locate, Location.mk.injEq]; omega

end Sys2Proof.Machine
end

