-- ==== Sys2Proof/Laws/Store.lean ====
section
/-! SUPPORT. The laws of the word stores: read after write, and every operation keeps the canonical
form; two stores in canonical form that read alike are equal. -/

namespace Sys2Proof.Machine

@[simp] theorem Store.read_nil (a : Nat) : Store.read [] a = 0#64 := rfl

theorem Store.read_cons (k : Nat) (u : Word) (rest : Store) (a : Nat) :
    Store.read ((k, u) :: rest) a = if k = a then u else Store.read rest a := rfl

theorem Store.wf_cons {k : Nat} {u : Word} {rest : Store} :
    Store.wf ((k, u) :: rest) = true ↔
      u ≠ 0#64 ∧ (∀ entry ∈ rest, k < entry.1) ∧ Store.wf rest = true := by
  simp [Store.wf, and_assoc]

/-- An index below every listed one reads as zero. -/
theorem Store.read_below (m : Store) (a : Nat) (h : ∀ entry ∈ m, a < entry.1) : m.read a = 0#64 := by
  induction m with
  | nil => rfl
  | cons entry rest ih =>
    obtain ⟨k, u⟩ := entry
    have hk : a < k := h (k, u) (by simp)
    rw [Store.read_cons, if_neg (Nat.ne_of_gt hk)]
    exact ih fun e he => h e (by simp [he])

/-- A write leaves every other index alone, in any store. -/
theorem Store.read_write_other (m : Store) {a b : Nat} (v : Word) (h : b ≠ a) :
    (m.write a v).read b = m.read b := by
  induction m with
  | nil => by_cases hv : v = 0#64 <;> simp [Store.write, hv, Store.read_cons, h.symm]
  | cons entry rest ih =>
    obtain ⟨k, u⟩ := entry
    simp only [Store.write]
    split
    · split <;> simp [Store.read_cons, h.symm]
    · split
      · next hak => subst hak; split <;> simp [Store.read_cons, h.symm]
      · simp [Store.read_cons, ih]

/-- A write is read back. -/
theorem Store.read_write_same (m : Store) (a : Nat) (v : Word) (hm : m.wf = true) :
    (m.write a v).read a = v := by
  induction m with
  | nil => by_cases hv : v = 0#64 <;> simp [Store.write, hv, Store.read_cons]
  | cons entry rest ih =>
    obtain ⟨k, u⟩ := entry
    obtain ⟨_, hk, hrest⟩ := Store.wf_cons.1 hm
    simp only [Store.write]
    split
    · next hak =>
      split
      · next hv =>
        rw [Store.read_cons, if_neg (by omega), hv]
        exact Store.read_below rest a fun e he => by have := hk e he; omega
      · simp [Store.read_cons]
    · split
      · next hak =>
        subst hak
        split
        · next hv => rw [hv]; exact Store.read_below rest a hk
        · simp [Store.read_cons]
      · next hak => rw [Store.read_cons, if_neg (by omega), ih hrest]

theorem Store.read_write (m : Store) (a b : Nat) (v : Word) (hm : m.wf = true) :
    (m.write a v).read b = if b = a then v else m.read b := by
  split
  · next h => rw [h, Store.read_write_same m a v hm]
  · next h => exact Store.read_write_other m v h

theorem Store.mem_write {m : Store} {a : Nat} {v : Word} {entry : Nat × Word}
    (h : entry ∈ m.write a v) : entry = (a, v) ∨ entry ∈ m := by
  induction m with
  | nil =>
    simp only [Store.write] at h
    split at h <;> simp_all
  | cons head rest ih =>
    obtain ⟨k, u⟩ := head
    simp only [Store.write] at h
    split at h
    · split at h <;> simp_all
    · split at h
      · split at h <;> simp_all
        exact h.elim Or.inl fun h => Or.inr (Or.inr h)
      · rcases List.mem_cons.1 h with h | h
        · exact Or.inr (by simp [h])
        · exact (ih h).imp id fun h => by simp [h]

/-- A write keeps the canonical form. -/
theorem Store.write_wf (m : Store) (a : Nat) (v : Word) (hm : m.wf = true) :
    (m.write a v).wf = true := by
  induction m with
  | nil => by_cases hv : v = 0#64 <;> simp [Store.write, hv, Store.wf]
  | cons entry rest ih =>
    obtain ⟨k, u⟩ := entry
    obtain ⟨hu, hk, hrest⟩ := Store.wf_cons.1 hm
    simp only [Store.write]
    split
    · next hak =>
      split
      · exact hm
      · next hv =>
        refine Store.wf_cons.2 ⟨hv, fun e he => ?_, hm⟩
        rcases List.mem_cons.1 he with rfl | he
        · exact hak
        · exact hak.trans (hk e he)
    · split
      · next hak =>
        subst hak
        split
        · exact hrest
        · next hv => exact Store.wf_cons.2 ⟨hv, hk, hrest⟩
      · refine Store.wf_cons.2 ⟨hu, fun e he => ?_, ih hrest⟩
        rcases Store.mem_write he with rfl | he
        · simp only; omega
        · exact hk e he

/-- Clearing below `n` reads as zero there and as before elsewhere. -/
theorem Store.read_clearBelow (m : Store) (n a : Nat) :
    (m.clearBelow n).read a = if a < n then 0#64 else m.read a := by
  induction m with
  | nil => simp [Store.clearBelow]
  | cons entry rest ih =>
    obtain ⟨k, u⟩ := entry
    simp only [Store.clearBelow, List.filter_cons, decide_eq_true_eq] at ih ⊢
    by_cases hk : n ≤ k
    · rw [if_pos hk, Store.read_cons, Store.read_cons, ih]
      split <;> split <;> first | rfl | omega
    · rw [if_neg hk, Store.read_cons, ih]
      by_cases ha : a < n
      · simp [ha]
      · rw [if_neg ha, if_neg ha, if_neg (by omega)]

theorem Store.clearBelow_wf (m : Store) (n : Nat) (hm : m.wf = true) :
    (m.clearBelow n).wf = true := by
  induction m with
  | nil => rfl
  | cons entry rest ih =>
    obtain ⟨k, u⟩ := entry
    obtain ⟨hu, hk, hrest⟩ := Store.wf_cons.1 hm
    have hih := ih hrest
    simp only [Store.clearBelow, List.filter_cons] at hih ⊢
    split
    · exact Store.wf_cons.2 ⟨hu, fun e he => hk e (List.mem_of_mem_filter he), hih⟩
    · exact hih

theorem Store.fill_wf (m : Store) (a : Nat) (f : Nat → Word) (k : Nat) (hm : m.wf = true) :
    (m.fill a f k).wf = true := by
  induction k with
  | zero => exact hm
  | succ k ih => exact Store.write_wf _ _ _ ih

/-- A fill is read back at its indices and leaves every other index alone. -/
theorem Store.read_fill (m : Store) (a : Nat) (f : Nat → Word) (k x : Nat) (hm : m.wf = true) :
    (m.fill a f k).read x = if a ≤ x ∧ x < a + k then f (x - a) else m.read x := by
  induction k with
  | zero => rw [if_neg (by omega)]; rfl
  | succ k ih =>
    rw [Store.fill, Store.read_write _ _ _ _ (Store.fill_wf m a f k hm), ih]
    by_cases hx : x = a + k
    · subst hx
      rw [if_pos rfl, if_pos ⟨by omega, by omega⟩, Nat.add_sub_cancel_left]
    · rw [if_neg hx]
      split <;> split <;> first | rfl | omega

/-- Two stores in canonical form that read alike at every index are the same list. -/
theorem Store.ext_of_read {m m' : Store} (hm : m.wf = true) (hm' : m'.wf = true)
    (h : ∀ a, m.read a = m'.read a) : m = m' := by
  induction m generalizing m' with
  | nil =>
    cases m' with
    | nil => rfl
    | cons entry rest =>
      obtain ⟨k, u⟩ := entry
      have := h k
      simp [Store.read_cons] at this
      exact absurd this.symm (Store.wf_cons.1 hm').1
  | cons entry rest ih =>
    obtain ⟨k, u⟩ := entry
    obtain ⟨hu, hk, hrest⟩ := Store.wf_cons.1 hm
    cases m' with
    | nil =>
      have := h k
      simp [Store.read_cons] at this
      exact absurd this hu
    | cons entry' rest' =>
      obtain ⟨k', u'⟩ := entry'
      obtain ⟨hu', hk', hrest'⟩ := Store.wf_cons.1 hm'
      have hkk : k = k' := by
        rcases Nat.lt_trichotomy k k' with hlt | heq | hgt
        · have := h k
          rw [Store.read_cons, if_pos rfl, Store.read_cons, if_neg (by omega),
            Store.read_below rest' k fun e he => hlt.trans (hk' e he)] at this
          exact absurd this hu
        · exact heq
        · have := h k'
          rw [Store.read_cons, if_neg (by omega), Store.read_cons, if_pos rfl,
            Store.read_below rest k' fun e he => hgt.trans (hk e he)] at this
          exact absurd this.symm hu'
      subst hkk
      have huu : u = u' := by simpa [Store.read_cons] using h k
      subst huu
      congr 1
      refine ih hrest hrest' fun a => ?_
      by_cases ha : k = a
      · subst ha
        rw [Store.read_below rest k hk, Store.read_below rest' k hk']
      · simpa [Store.read_cons, ha] using h a

end Sys2Proof.Machine
end

