-- ==== Sys2Proof/Laws/Build.lean ====
section
/-! SUPPORT. What the passes of BLD, BLDP and PRECOMP leave in the block store, slot by slot. -/

namespace Sys2Proof.Machine

section Passes
variable (input : Nat → Word) (m : Store)

theorem copyBlock_wf (b : Nat) (presum : Word) (hm : m.wf = true) :
    (copyBlock input b presum m).wf = true :=
  Store.write_wf _ _ _ (Store.fill_wf _ _ _ _ hm)

theorem read_copyBlock (b : Nat) (presum : Word) (x : Nat) (hm : m.wf = true) :
    (copyBlock input b presum m).read x =
      if x = 8 * b then presum
      else if 8 * b < x ∧ x < 8 * b + 8 then input (7 * b + (x - (8 * b + 1)))
      else m.read x := by
  rw [copyBlock, Store.read_write _ _ _ _ (Store.fill_wf _ _ _ _ hm), Store.read_fill _ _ _ _ _ hm]
  simp only [presumSlot, paySlot, Nat.add_zero]
  by_cases h1 : x = 8 * b
  · simp [h1]
  · rw [if_neg h1, if_neg h1]
    by_cases h2 : 8 * b < x ∧ x < 8 * b + 8
    · rw [if_pos h2, if_pos (by omega)]
    · rw [if_neg h2, if_neg (by omega)]

theorem bldPass_wf (n : Nat) (hm : m.wf = true) : (bldPass input m n).wf = true := by
  induction n with
  | zero => exact hm
  | succ n ih => exact copyBlock_wf _ _ _ _ ih

/-- After BLD's pass over `n` blocks: counters zero, payload copied, every other slot as before. -/
theorem read_bldPass (n x : Nat) (hm : m.wf = true) :
    (bldPass input m n).read x =
      if x < 8 * n then (if x % 8 = 0 then 0#64 else input (7 * (x / 8) + (x % 8 - 1)))
      else m.read x := by
  induction n with
  | zero => simp [bldPass]
  | succ n ih =>
    rw [bldPass, read_copyBlock _ _ _ _ _ (bldPass_wf input m n hm), ih]
    by_cases h1 : x = 8 * n
    · simp [h1, show (8 * n) % 8 = 0 by omega, show 8 * n < 8 * (n + 1) by omega]
    · rw [if_neg h1]
      by_cases h2 : 8 * n < x ∧ x < 8 * n + 8
      · rw [if_pos h2, if_pos (by omega), if_neg (by omega)]
        congr 1; omega
      · rw [if_neg h2]
        by_cases h3 : x < 8 * n
        · rw [if_pos h3, if_pos (show x < 8 * (n + 1) by omega)]
        · rw [if_neg h3, if_neg (by omega)]

theorem bldpPass_wf (n : Nat) (hm : m.wf = true) : (bldpPass input m n).1.wf = true := by
  induction n with
  | zero => exact hm
  | succ n ih => exact copyBlock_wf _ _ _ _ ih

/-- BLDP's running total is the one bits of the blocks passed. -/
theorem bldpPass_total (n : Nat) : (bldpPass input m n).2 = sumBelow (inputOnes input) n := by
  induction n with
  | zero => rfl
  | succ n ih => rw [bldpPass, sumBelow_succ, ← ih]

/-- After BLDP's pass over `n` blocks: each counter the total before it, payload copied, every other
slot as before. -/
theorem read_bldpPass (n x : Nat) (hm : m.wf = true) :
    (bldpPass input m n).1.read x =
      if x < 8 * n then
        (if x % 8 = 0 then result (sumBelow (inputOnes input) (x / 8))
         else input (7 * (x / 8) + (x % 8 - 1)))
      else m.read x := by
  induction n with
  | zero => simp [bldpPass]
  | succ n ih =>
    rw [bldpPass, read_copyBlock _ _ _ _ _ (bldpPass_wf input m n hm), ih, bldpPass_total]
    by_cases h1 : x = 8 * n
    · rw [if_pos h1, if_pos (by omega), if_pos (by omega), show x / 8 = n by omega]
    · rw [if_neg h1]
      by_cases h2 : 8 * n < x ∧ x < 8 * n + 8
      · rw [if_pos h2, if_pos (by omega), if_neg (by omega)]
        congr 1; omega
      · rw [if_neg h2]
        by_cases h3 : x < 8 * n
        · rw [if_pos h3, if_pos (show x < 8 * (n + 1) by omega)]
        · rw [if_neg h3, if_neg (by omega)]

theorem precompPass_wf (n : Nat) (hm : m.wf = true) : (precompPass m n).1.wf = true := by
  induction n with
  | zero => exact hm
  | succ n ih => exact Store.write_wf _ _ _ ih

/-- PRECOMP's pass over `n` blocks: each counter the total before it, every other slot as before, and
the running total is the one bits of the blocks passed. -/
theorem precompPass_spec (n : Nat) (hm : m.wf = true) :
    (precompPass m n).2 = sumBelow (storedOnes m) n ∧
    ∀ x, (precompPass m n).1.read x =
      if x < 8 * n ∧ x % 8 = 0 then result (sumBelow (storedOnes m) (x / 8)) else m.read x := by
  induction n with
  | zero => exact ⟨rfl, fun x => by simp [precompPass]⟩
  | succ n ih =>
    obtain ⟨htotal, hread⟩ := ih
    constructor
    · have hones : storedOnes (precompPass m n).1 n = storedOnes m n :=
        sumBelow_congr fun w hw => by rw [hread, if_neg (by simp only [paySlot]; omega)]
      simp only [precompPass, sumBelow_succ, htotal, hones]
    · intro x
      rw [precompPass, Store.read_write _ _ _ _ (precompPass_wf m n hm), hread, htotal]
      by_cases h1 : x = 8 * n
      · rw [if_pos h1, if_pos (by omega), show x / 8 = n by omega]
      · rw [if_neg h1]
        by_cases h2 : x < 8 * n ∧ x % 8 = 0
        · rw [if_pos h2, if_pos (by omega)]
        · rw [if_neg h2, if_neg (by omega)]

end Passes

end Sys2Proof.Machine
end

