-- ==== Sys2Proof/Laws/Decode.lean ====
section
/-! SUPPORT. The fields of a command word, and the words of the encoder. -/

namespace Sys2Proof

@[simp] theorem op_commandWord (op : BitVec 8) (a b : Word) : (commandWord op a b).op = op := by
  apply BitVec.eq_of_getLsbD_eq
  intro i hi
  simp only [CommandWord.op, commandWord, BitVec.getLsbD_extractLsb', BitVec.getLsbD_append]
  simp [show ¬ 128 + i < 64 by omega, show ¬ 128 + i - 64 < 64 by omega, show 128 + i - 64 - 64 = i by omega, hi]

@[simp] theorem a_commandWord (op : BitVec 8) (a b : Word) : (commandWord op a b).a = a := by
  apply BitVec.eq_of_getLsbD_eq
  intro i hi
  simp only [CommandWord.a, commandWord, BitVec.getLsbD_extractLsb', BitVec.getLsbD_append]
  simp [hi]

@[simp] theorem b_commandWord (op : BitVec 8) (a b : Word) : (commandWord op a b).b = b := by
  apply BitVec.eq_of_getLsbD_eq
  intro i hi
  simp only [CommandWord.b, commandWord, BitVec.getLsbD_extractLsb', BitVec.getLsbD_append]
  simp [hi]

/-- A command word is its three fields. -/
theorem commandWord_fields (c : CommandWord) : commandWord c.op c.a c.b = c := by
  apply BitVec.eq_of_getLsbD_eq
  intro i hi
  simp only [CommandWord.op, CommandWord.a, CommandWord.b, commandWord,
    BitVec.getLsbD_extractLsb', BitVec.getLsbD_append]
  by_cases h1 : i < 64
  · simp [h1]
  · by_cases h2 : i - 64 < 64
    · simp [h1, h2, show 64 + (i - 64) = i by omega]
    · simp [h1, h2, show 128 + (i - 64 - 64) = i by omega, show i - 64 - 64 < 8 by omega]

theorem whenZero_zero (op : BitVec 8) (i : Instr) : whenZero op 0#64 i = .ok i := rfl

theorem whenBothZero_zero (op : BitVec 8) (i : Instr) : whenBothZero op 0#64 0#64 i = .ok i := rfl

theorem whenZero_ok {op : BitVec 8} {unused : Word} {i j : Instr}
    (h : whenZero op unused i = .ok j) : unused = 0#64 ∧ i = j := by
  unfold whenZero at h
  split at h
  · next hz => exact ⟨hz, by injection h⟩
  · cases h

theorem whenBothZero_ok {op : BitVec 8} {a b : Word} {i j : Instr}
    (h : whenBothZero op a b i = .ok j) : a = 0#64 ∧ b = 0#64 ∧ i = j := by
  unfold whenBothZero at h
  split at h
  · next hz => exact ⟨hz.1, hz.2, by injection h⟩
  · cases h

end Sys2Proof
end

