-- ==== Sys2Proof/Laws/State.lean ====
section
/-! SUPPORT. One lemma a field for each update of the state, each true by computation, so that no later
proof unfolds a record update. -/

namespace Sys2Proof.Machine

section Respond
variable (s : State) (e : Engine) (st : Status) (val : Word)

@[simp] theorem respond_cfg : (s.respond e st val).cfg = s.cfg := rfl
@[simp] theorem respond_eng : (s.respond e st val).eng = e := rfl
@[simp] theorem respond_inbox : (s.respond e st val).inbox = s.inbox := rfl
@[simp] theorem respond_rsp : (s.respond e st val).rsp = some ⟨st, val⟩ := rfl
@[simp] theorem respond_delivered :
    (s.respond e st val).delivered = s.delivered ++ s.rsp.toList := rfl

end Respond

section Deliver
variable (s : State)

@[simp] theorem deliver_cfg : s.deliver.cfg = s.cfg := rfl
@[simp] theorem deliver_eng : s.deliver.eng = s.eng := rfl
@[simp] theorem deliver_inbox : s.deliver.inbox = s.inbox := rfl
@[simp] theorem deliver_rsp : s.deliver.rsp = none := rfl
@[simp] theorem deliver_delivered : s.deliver.delivered = s.delivered ++ s.rsp.toList := rfl

@[simp] theorem applyReset_cfg : s.applyReset.cfg = s.cfg := rfl
@[simp] theorem applyReset_eng : s.applyReset.eng = Engine.reset := rfl
@[simp] theorem applyReset_inbox : s.applyReset.inbox = s.inbox := rfl
@[simp] theorem applyReset_rsp : s.applyReset.rsp = none := rfl
@[simp] theorem applyReset_delivered : s.applyReset.delivered = s.delivered := rfl

end Deliver

section Engine
variable (e : Engine) (i b w : Nat) (v : Word)

@[simp] theorem setFvWord_fvn : (e.setFvWord i v).fvn = e.fvn := rfl
@[simp] theorem setFvWord_fv : (e.setFvWord i v).fv = e.fv.write i v := rfl
@[simp] theorem setFvWord_nblk : (e.setFvWord i v).nblk = e.nblk := rfl
@[simp] theorem setFvWord_len : (e.setFvWord i v).len = e.len := rfl
@[simp] theorem setFvWord_idx : (e.setFvWord i v).idx = e.idx := rfl
@[simp] theorem setFvWord_fatal : (e.setFvWord i v).fatal = e.fatal := rfl
@[simp] theorem setFvWord_blk : (e.setFvWord i v).blk = e.blk := rfl

@[simp] theorem setPay_fvn : (e.setPay b w v).fvn = e.fvn := rfl
@[simp] theorem setPay_fv : (e.setPay b w v).fv = e.fv := rfl
@[simp] theorem setPay_nblk : (e.setPay b w v).nblk = e.nblk := rfl
@[simp] theorem setPay_len : (e.setPay b w v).len = e.len := rfl
@[simp] theorem setPay_idx : (e.setPay b w v).idx = e.idx := rfl
@[simp] theorem setPay_fatal : (e.setPay b w v).fatal = e.fatal := rfl
@[simp] theorem setPay_blk : (e.setPay b w v).blk = e.blk.write (paySlot b w) v := rfl

end Engine

end Sys2Proof.Machine
end

