-- ==== Sys2Proof/Laws/Machine.lean ====
section
/-! SUPPORT. What the shared operations of a command can do: how it answers, what it leaves, and which
step it is part of. -/

namespace Sys2Proof.Machine

/-! ### Running a command -/

/-- With `FATAL = 0` a command's rule decides (R66). -/
theorem perform_ready {s : State} (rule : Engine → Verdict) (h : s.eng.fatal = false) :
    s.perform rule = .next (s.conclude (rule s.eng)) := by
  simp [State.perform, h]

/-- With `FATAL = 1` nothing but `ERR_FATAL` is answered (R66 step 1). -/
theorem perform_fatal {s : State} (rule : Engine → Verdict) (h : s.eng.fatal = true) :
    s.perform rule = .next (s.respond s.eng .errFatal 0#64) := by
  simp [State.perform, h]

/-- Every way a command can end: `FATAL` was latched, or its rule's verdict is answered. -/
theorem perform_cases {s t : State} {rule : Engine → Verdict} (h : s.perform rule = .next t) :
    (s.eng.fatal = true ∧ t = s.respond s.eng .errFatal 0#64) ∨
    (s.eng.fatal = false ∧ ∃ st, rule s.eng = .raise st ∧ t = s.respond s.eng st 0#64) ∨
    (s.eng.fatal = false ∧ rule s.eng = .raiseFatal ∧
      t = s.respond { s.eng with fatal := true } .errFatal 0#64) ∨
    (s.eng.fatal = false ∧ ∃ e val, rule s.eng = .reply e val ∧ t = s.respond e .ok val) := by
  cases hf : s.eng.fatal with
  | true =>
    rw [perform_fatal rule hf] at h
    exact .inl ⟨rfl, by injection h with h; exact h.symm⟩
  | false =>
    rw [perform_ready rule hf] at h
    injection h with h
    subst h
    cases hr : rule s.eng with
    | raise st => exact .inr (.inl ⟨rfl, st, rfl, rfl⟩)
    | raiseFatal => exact .inr (.inr (.inl ⟨rfl, rfl, rfl⟩))
    | reply e val => exact .inr (.inr (.inr ⟨rfl, e, val, rfl, rfl⟩))

/-- A command is answered once and touches neither the parameter nor what the host does next. -/
theorem perform_frame {s t : State} {rule : Engine → Verdict} (h : s.perform rule = .next t) :
    t.cfg = s.cfg ∧ t.inbox = s.inbox ∧ t.delivered = s.delivered ++ s.rsp.toList ∧
      ∃ r, t.rsp = some r := by
  rcases perform_cases h with ⟨_, rfl⟩ | ⟨_, _, _, rfl⟩ | ⟨_, _, rfl⟩ | ⟨_, _, _, _, rfl⟩ <;>
    exact ⟨rfl, rfl, rfl, _, rfl⟩

/-- Every command but FVNEW is run by the one shared operation, by a rule that sees the engine alone. -/
theorem exec_engine_rule (i : Instr) (h : ∀ n, i ≠ .fvnew n) :
    ∃ rule : Engine → Verdict, ∀ s, exec i s = s.perform rule := by
  cases i with
  | fvnew n => exact absurd rfl (h n)
  | _ =>
    constructor
    · intro s
      simp only [exec, execWset, execWacc, execWcnt, execWrank, execWsel, execWselone, execLutrd,
        execFvputw, execFvset, execFvunset, execFvacc, execFvcnt, execFvlen, execFvext, execBld,
        execBldp, execPrecomp, execLocate, execAcc, execSet, execRank, execSel, execOvh, execSize]
      exact rfl

/-- Every command is run by the one shared operation, by a rule that sees the parameter and the engine
and nothing else of the machine. -/
theorem exec_rule (i : Instr) :
    ∃ rule : Config → Engine → Verdict, ∀ s, exec i s = s.perform (rule s.cfg) := by
  by_cases h : ∃ n, i = .fvnew n
  · obtain ⟨n, rfl⟩ := h
    exact ⟨fun cfg e =>
      if cfg.maxW < n.toNat then .raise .errCap
      else .reply { e with fvn := n, fv := e.fv.clearBelow n.toNat } 0#64, fun _ => rfl⟩
  · obtain ⟨rule, hrule⟩ := exec_engine_rule i fun n hn => h ⟨n, hn⟩
    exact ⟨fun _ => rule, hrule⟩

theorem exec_eq_perform (i : Instr) (s : State) : ∃ rule, exec i s = s.perform rule := by
  obtain ⟨rule, h⟩ := exec_rule i
  exact ⟨_, h s⟩

theorem exec_next (i : Instr) (s : State) : ∃ t, exec i s = .next t := by
  obtain ⟨rule, h⟩ := exec_eq_perform i s
  exact ⟨_, h⟩

/-! ### Steps -/

theorem step_idle {s : State} (h : s.inbox = []) : step s = .next s := by
  simp [step, h]

theorem step_command {s : State} {c : CommandWord} {rest : List HostEvent}
    (h : s.inbox = .command c :: rest) :
    step s = ({ s with inbox := rest } : State).runWord c := by
  simp [step, h]

theorem step_takeResponse {s : State} {rest : List HostEvent}
    (h : s.inbox = .takeResponse :: rest) :
    step s = .next ({ s with inbox := rest } : State).deliver := by
  simp [step, h]

theorem step_reset {s : State} {rest : List HostEvent} (h : s.inbox = .reset :: rest) :
    step s = .next ({ s with inbox := rest } : State).applyReset := by
  simp [step, h]

theorem runWord_ok {s : State} {c : CommandWord} {i : Instr} (h : decode c = .ok i) :
    s.runWord c = exec i s := by
  simp [State.runWord, h]

theorem runWord_error {s : State} {c : CommandWord} {err : DecodeError}
    (h : decode c = .error err) : s.runWord c = s.performIllegal := by
  simp [State.runWord, h]

/-- Every word is run by the one shared operation. -/
theorem runWord_eq_perform (s : State) (c : CommandWord) :
    ∃ rule, s.runWord c = s.perform rule := by
  cases h : decode c with
  | ok i => rw [runWord_ok h]; exact exec_eq_perform i s
  | error err => exact ⟨_, runWord_error h⟩

end Sys2Proof.Machine
end

