-- ==== Sys2Proof/Laws/PerInstr.lean ====
section
/-! SUPPORT. One law for each command of the opcode table: its word is in the table. -/

namespace Sys2Proof.Laws.WordLegal

/-- The word of the command belongs to a row of the opcode table, read apart from the decoder (R64,
R67). -/
def Statement (i : Instr) : Prop := (encode i).wellFormed = true

/-- Masking a word masks its three fields. -/
theorem commandWord_and (op op' : BitVec 8) (a a' b b' : Word) :
    commandWord op a b &&& commandWord op' a' b' = commandWord (op &&& op') (a &&& a') (b &&& b') := by
  apply BitVec.eq_of_getLsbD_eq
  intro i _
  simp only [commandWord, BitVec.getLsbD_and, BitVec.getLsbD_append]
  split <;> [rfl; (split <;> rfl)]

/-- A word is well formed when a row's mask takes its fields to the row's value: the opcode to the
row's, and the operands to zero. -/
theorem wellFormed_of_fields (m : Mnemonic) (v op opm : BitVec 8) (a am b bm : Word)
    (hr : ⟨m, commandWord v 0#64 0#64, commandWord opm am bm⟩ ∈ opcodeTable)
    (ho : op &&& opm = v) (ha : a &&& am = 0#64) (hb : b &&& bm = 0#64) :
    (commandWord op a b).wellFormed = true :=
  List.any_eq_true.2 ⟨_, hr, by simp [OpcodeRow.accepts, commandWord_and, ho, ha, hb]⟩

/-- A row that fixes the opcode bits and no operand. -/
theorem legal_two (m : Mnemonic) (v opm op : BitVec 8) (a b : Word)
    (hr : ⟨m, commandWord v 0#64 0#64, commandWord opm 0#64 0#64⟩ ∈ opcodeTable)
    (ho : op &&& opm = v) : (commandWord op a b).wellFormed = true :=
  wellFormed_of_fields m v op opm a 0#64 b 0#64 hr ho BitVec.and_zero BitVec.and_zero

/-- A row that fixes the opcode bits and wants the second operand zero. -/
theorem legal_one (m : Mnemonic) (v opm op : BitVec 8) (a : Word)
    (hr : ⟨m, commandWord v 0#64 0#64, commandWord opm 0#64 (BitVec.allOnes 64)⟩ ∈ opcodeTable)
    (ho : op &&& opm = v) : (commandWord op a 0#64).wellFormed = true :=
  wellFormed_of_fields m v op opm a 0#64 0#64 _ hr ho BitVec.and_zero BitVec.zero_and

theorem wset (x p : Word) : Statement (.wset x p) :=
  legal_two .WSET 0x10#8 0xFF#8 _ x p (by decide) (by decide)
theorem wacc (x p : Word) : Statement (.wacc x p) :=
  legal_two .WACC 0x11#8 0xFF#8 _ x p (by decide) (by decide)
theorem wcnt (x : Word) : Statement (.wcnt x) :=
  legal_one .WCNT 0x12#8 0xFF#8 _ x (by decide) (by decide)
theorem wrank (alpha : Bool) (x n : Word) : Statement (.wrank alpha x n) :=
  legal_two .WRANK 0x14#8 0xFE#8 _ x n (by decide) (by cases alpha <;> decide)
theorem wsel (alpha : Bool) (x n : Word) : Statement (.wsel alpha x n) :=
  legal_two .WSEL 0x16#8 0xFE#8 _ x n (by decide) (by cases alpha <;> decide)
theorem wselone (y n : Word) : Statement (.wselone y n) :=
  legal_two .WSELONE 0x18#8 0xFF#8 _ y n (by decide) (by decide)
theorem lutrd (v k : Word) : Statement (.lutrd v k) :=
  legal_two .LUTRD 0x20#8 0xFF#8 _ v k (by decide) (by decide)
theorem fvnew (n : Word) : Statement (.fvnew n) :=
  legal_one .FVNEW 0x30#8 0xFF#8 _ n (by decide) (by decide)
theorem fvputw (i v : Word) : Statement (.fvputw i v) :=
  legal_two .FVPUTW 0x31#8 0xFF#8 _ i v (by decide) (by decide)
theorem fvset (p : Word) : Statement (.fvset p) :=
  legal_one .FVSET 0x32#8 0xFF#8 _ p (by decide) (by decide)
theorem fvunset (p : Word) : Statement (.fvunset p) :=
  legal_one .FVUNSET 0x33#8 0xFF#8 _ p (by decide) (by decide)
theorem fvacc (p : Word) : Statement (.fvacc p) :=
  legal_one .FVACC 0x34#8 0xFF#8 _ p (by decide) (by decide)
theorem fvcnt : Statement .fvcnt := (by decide : (encode .fvcnt).wellFormed = true)
theorem fvlen : Statement .fvlen := (by decide : (encode .fvlen).wellFormed = true)
theorem fvext (p len : Word) : Statement (.fvext p len) :=
  legal_two .FVEXT 0x37#8 0xFF#8 _ p len (by decide) (by decide)
theorem bld : Statement .bld := (by decide : (encode .bld).wellFormed = true)
theorem bldp : Statement .bldp := (by decide : (encode .bldp).wellFormed = true)
theorem precomp : Statement .precomp := (by decide : (encode .precomp).wellFormed = true)
theorem locate (p : Word) : Statement (.locate p) :=
  legal_one .LOCATE 0x50#8 0xFF#8 _ p (by decide) (by decide)
theorem acc (p : Word) : Statement (.acc p) :=
  legal_one .ACC 0x51#8 0xFF#8 _ p (by decide) (by decide)
theorem set (p : Word) : Statement (.set p) :=
  legal_one .SET 0x52#8 0xFF#8 _ p (by decide) (by decide)
theorem rank (alpha : Bool) (p : Word) : Statement (.rank alpha p) :=
  legal_one .RANK 0x54#8 0xFE#8 _ p (by decide) (by cases alpha <;> decide)
theorem sel (alpha : Bool) (n : Word) : Statement (.sel alpha n) :=
  legal_one .SEL 0x56#8 0xFE#8 _ n (by decide) (by cases alpha <;> decide)
theorem ovh : Statement .ovh := (by decide : (encode .ovh).wellFormed = true)
theorem size : Statement .size := (by decide : (encode .size).wellFormed = true)

end Sys2Proof.Laws.WordLegal
end

