-- ==== Sys2Proof/Laws/Query.lean ====
section
/-! SUPPORT. The logical content of the vectors in terms of their words: ranks over blocks and words, and
the windows of the Flat Vector. -/

namespace Sys2Proof.Machine

/-- The zeros of a prefix are the rest of it. -/
theorem rankRef_false (bits : Nat → Bool) (p : Nat) :
    rankRef bits false p = p - rankRef bits true p := by
  have := rankRef_true_add_false bits p; omega

section Content
variable (e : Engine)

/-- A bit of the Indexed Vector by block, word and bit (R140). -/
theorem bit_of_parts {b w o : Nat} (hw : w < 7) (ho : o < 64) :
    e.bit (448 * b + 64 * w + o) = (e.pay b w).getLsbD o := by
  simp only [Engine.bit, locate_of_parts hw ho]

/-- The rank over the first `o` bits of a payload word. -/
theorem rankRef_in_word (a : Bool) {b w o : Nat} (hw : w < 7) (ho : o ≤ 64) :
    rankRef (fun i => e.bit (448 * b + 64 * w + i)) a o = rankRef (e.pay b w).getLsbD a o :=
  rankRef_congr a fun i hi => bit_of_parts e hw (by omega)

/-- The rank over the first `w` words of a block. -/
theorem rankRef_words (a : Bool) {b w : Nat} (hw : w ≤ 7) :
    rankRef (fun i => e.bit (448 * b + i)) a (64 * w) =
      sumBelow (fun j => wordCount a (e.pay b j)) w := by
  rw [rankRef_mul]
  refine sumBelow_congr fun j hj => ?_
  rw [wordCount_eq_rankRef, ← rankRef_in_word e a (show j < 7 by omega) (Nat.le_refl 64)]
  exact rankRef_congr a fun i _ => by rw [Nat.add_assoc]

/-- The rank at a position: the blocks before its block, the words before its word, and the bits before it
in the word (R172). -/
theorem rankRef_of_parts (a : Bool) {b w o : Nat} (hw : w < 7) (ho : o ≤ 64) :
    rankRef e.bit a (448 * b + 64 * w + o) =
      rankRef e.bit a (448 * b) + sumBelow (fun j => wordCount a (e.pay b j)) w +
        rankRef (e.pay b w).getLsbD a o := by
  rw [rankRef_add, rankRef_add, rankRef_words e a (by omega), rankRef_in_word e a hw ho]

/-- The ones of the blocks before block `b`. -/
theorem rankRef_blocks (b : Nat) :
    rankRef e.bit true (448 * b) = sumBelow (storedOnes e.blk) b := by
  rw [rankRef_mul]
  refine sumBelow_congr fun j _ => ?_
  rw [show (448 : Nat) = 64 * 7 by rfl, show (fun i => e.bit (64 * 7 * j + i)) =
    (fun i => e.bit (448 * j + i)) by rfl, rankRef_words e true (Nat.le_refl 7)]
  rfl

/-- Where the counter of the block is right, the ones before a position are counted right (R143, R172). -/
theorem onesBefore_eq (p : Nat)
    (h : (e.presum (locate p).block).toNat = rankRef e.bit true (448 * (locate p).block)) :
    e.onesBefore (locate p) = rankRef e.bit true p := by
  conv => rhs; rw [← locate_inverse p]
  rw [rankRef_of_parts e true (locate_word_lt p) (Nat.le_of_lt (locate_bit_lt p)), Engine.onesBefore, h,
    wordRank_eq_rankRef true _ _ (Nat.le_of_lt (locate_bit_lt p))]
  rfl

/-- Where the counter of block `i` is right, so is the count of either bit before it (R144, R149). -/
theorem countBefore_eq (a : Bool) (i : Nat)
    (h : (e.presum i).toNat = rankRef e.bit true (448 * i)) :
    e.countBefore a i = rankRef e.bit a (448 * i) := by
  cases a with
  | true => simpa [Engine.countBefore] using h
  | false => simp [Engine.countBefore, h, rankRef_false]

/-- In the indexed state every counter is the ones before its block (R30). -/
theorem presum_eq {cfg : Config} (hinv : e.Inv cfg) (hidx : e.idx = .indexed) {b : Nat}
    (hb : b < e.nblk.toNat) : (e.presum b).toNat = rankRef e.bit true (448 * b) :=
  (hinv.presum_indexed hidx b hb).trans (rankRef_blocks e b).symm

/-- A legal position lies in a block that exists (R140). -/
theorem locate_block_lt {cfg : Config} (hinv : e.Inv cfg) {p : Nat} (hp : p < e.len.toNat) :
    (locate p).block < e.nblk.toNat := by
  obtain ⟨n, _, hlen, hblk⟩ := hinv.size
  simp only [locate]; omega

/-- A bit of the Flat Vector by word and bit (R24). -/
theorem fvBit_of_parts {i o : Nat} (ho : o < 64) : e.fvBit (64 * i + o) = (e.fvWord i).getLsbD o := by
  simp only [Engine.fvBit, show (64 * i + o) / 64 = i by omega, show (64 * i + o) % 64 = o by omega]

/-- The ones of the Flat Vector, word by word (R116). -/
theorem rankRef_fvWords (n : Nat) :
    rankRef e.fvBit true (64 * n) = sumBelow (fun i => popcount (e.fvWord i)) n := by
  rw [rankRef_mul]
  exact sumBelow_congr fun i _ => rankRef_congr true fun o ho => fvBit_of_parts e ho

/-- Bit `k` of a window is bit `p + k` of the Flat Vector below the window's length and 0 above (R118). -/
theorem getLsbD_extractRun (p len k : Nat) (hlen : len ≤ 64) (hk : k < 64) :
    (e.extractRun p len).getLsbD k = (decide (k < len) && e.fvBit (p + k)) := by
  by_cases h0 : len = 0
  · subst h0; simp [Engine.extractRun]
  · rw [Engine.extractRun, if_neg h0]
    simp only [BitVec.getLsbD_and, getLsbD_mask len k hlen, BitVec.getLsbD_or,
      BitVec.getLsbD_ushiftRight]
    by_cases hkl : k < len
    · simp only [hkl, decide_true, Bool.and_true, Bool.true_and]
      by_cases hin : p % 64 + k < 64
      · have hbit : e.fvBit (p + k) = (e.fvWord (p / 64)).getLsbD (p % 64 + k) := by
          rw [← fvBit_of_parts e hin]; congr 1; omega
        rw [hbit]
        split
        · rw [BitVec.getLsbD_shiftLeft]
          simp [show k < 64 - p % 64 by omega]
        · simp
      · have hbit : e.fvBit (p + k) = (e.fvWord (p / 64 + 1)).getLsbD (p % 64 + k - 64) := by
          rw [← fvBit_of_parts e (show p % 64 + k - 64 < 64 by omega)]; congr 1; omega
        rw [hbit, if_pos (by omega), BitVec.getLsbD_of_ge _ (p % 64 + k) (by omega),
          BitVec.getLsbD_shiftLeft]
        simp [hk, show ¬ k < 64 - p % 64 by omega,
          show k - (64 - p % 64) = p % 64 + k - 64 by omega]
    · simp [hkl]

end Content

end Sys2Proof.Machine
end

