-- ==== Sys2Proof/Laws/Select.lean ====
section
/-! SUPPORT. What the searches find: the table's position, SelectOne over the segments, WordSelect, and the
word scan of SEL. -/

namespace Sys2Proof.Machine

/-! ### Positions that hold a given count -/

/-- Where a sequence holds more than `k` bits equal to `a`, one of them has exactly `k` before it. -/
theorem exists_rankRef_eq (bits : Nat → Bool) (a : Bool) (k n : Nat) (h : k < rankRef bits a n) :
    ∃ j, j < n ∧ bits j = a ∧ rankRef bits a j = k := by
  induction n with
  | zero => simp [rankRef_zero] at h
  | succ n ih =>
    by_cases hn : k < rankRef bits a n
    · obtain ⟨j, hj, h1, h2⟩ := ih hn
      exact ⟨j, by omega, h1, h2⟩
    · rw [rankRef_succ] at h
      by_cases hb : bits n = a
      · rw [if_pos hb] at h
        exact ⟨n, by omega, hb, by omega⟩
      · rw [if_neg hb] at h; omega

/-- At most one position holds `a` and has a given count before it. -/
theorem select_unique (bits : Nat → Bool) (a : Bool) {p q : Nat} (hp : bits p = a) (hq : bits q = a)
    (h : rankRef bits a p = rankRef bits a q) : p = q := by
  rcases Nat.lt_trichotomy p q with hlt | heq | hgt
  · have h1 := rankRef_mono bits a (show p + 1 ≤ q from hlt)
    rw [rankRef_succ, if_pos hp] at h1; omega
  · exact heq
  · have h1 := rankRef_mono bits a (show q + 1 ≤ p from hgt)
    rw [rankRef_succ, if_pos hq] at h1; omega

/-- The table's position is that of the one bit with `k` ones below it, where there is one (R100). -/
theorem lutPos_spec (v : BitVec 8) (k : Nat) (h : k < popcount v) :
    lutPos v k < 8 ∧ v.getLsbD (lutPos v k) = true ∧ rankRef v.getLsbD true (lutPos v k) = k := by
  obtain ⟨j, hj, h1, h2⟩ := exists_rankRef_eq v.getLsbD true k 8 h
  unfold lutPos
  cases hfind : (List.range 8).find? fun j =>
      v.getLsbD j && (Nat.count (fun i => v.getLsbD i = true) j == k) with
  | none =>
    have := List.find?_eq_none.1 hfind j (List.mem_range.2 hj)
    have h2' : Nat.count (fun i => v.getLsbD i = true) j = k := h2
    simp [h1, h2'] at this
  | some i =>
    have hm := List.mem_range.1 (List.mem_of_find?_eq_some hfind)
    have hp := List.find?_some hfind
    simp only [Bool.and_eq_true, beq_iff_eq] at hp
    exact ⟨hm, hp.1, hp.2⟩

/-! ### SelectOne and WordSelect -/

/-- The ones of a segment are those of its eight bits of the word. -/
theorem popcount_segment (y : Word) (s : Nat) :
    popcount (segment y s) = rankRef (fun i => y.getLsbD (8 * s + i)) true 8 :=
  rankRef_congr true fun i hi => by rw [getLsbD_segment]; simp [hi]

/-- The loop of SelectOne from segment `s` on finds the `need`-th one bit at or past bit `8s`, or reports
that the segments left hold too few (R86). -/
theorem selectScan_spec (y : Word) (left s need : Nat) (hneed : 1 ≤ need) :
    (need ≤ rankRef (fun i => y.getLsbD (8 * s + i)) true (8 * left) →
      ∃ p, selectScan lut y left s need = .position p ∧ p < 8 * (s + left) ∧
        y.getLsbD p = true ∧ rankRef y.getLsbD true p + 1 = rankRef y.getLsbD true (8 * s) + need) ∧
    (rankRef (fun i => y.getLsbD (8 * s + i)) true (8 * left) < need →
      selectScan lut y left s need = .notFound) := by
  induction left generalizing s need with
  | zero => simp [rankRef_zero, selectScan]; omega
  | succ left ih =>
    have hsplit : rankRef (fun i => y.getLsbD (8 * s + i)) true (8 * (left + 1)) =
        popcount (segment y s) + rankRef (fun i => y.getLsbD (8 * (s + 1) + i)) true (8 * left) := by
      rw [show 8 * (left + 1) = 8 + 8 * left by omega, rankRef_add, popcount_segment]
      congr 1
      exact rankRef_congr true fun i _ => by congr 1; omega
    have hbase : rankRef y.getLsbD true (8 * (s + 1)) =
        rankRef y.getLsbD true (8 * s) + popcount (segment y s) := by
      rw [show 8 * (s + 1) = 8 * s + 8 by omega, rankRef_add, popcount_segment]
    by_cases hc : popcount (segment y s) < need
    · obtain ⟨h1, h2⟩ := ih (s + 1) (need - popcount (segment y s)) (by omega)
      have hstep : selectScan lut y (left + 1) s need =
          selectScan lut y left (s + 1) (need - popcount (segment y s)) := by
        simp [selectScan, hc]
      rw [hstep, hsplit]
      refine ⟨fun h => ?_, fun h => h2 (by omega)⟩
      obtain ⟨p, hp, hlt, hbit, hrank⟩ := h1 (by omega)
      exact ⟨p, hp, by omega, hbit, by omega⟩
    · obtain ⟨hlt, hbit, hrank⟩ := lutPos_spec (segment y s) (need - 1) (by omega)
      have hle := popcount_le (segment y s)
      have hpos : (BitVec.ofNat 3 (lutPos (segment y s) (need - 1))).toNat =
          lutPos (segment y s) (need - 1) := by
        rw [BitVec.toNat_ofNat, Nat.mod_eq_of_lt (by omega)]
      have hstep : selectScan lut y (left + 1) s need =
          .position (8 * s + lutPos (segment y s) (need - 1)) := by
        simp [selectScan, hc, lut, show need - 1 + 1 ≤ popcount (segment y s) by omega, hpos]
      rw [hstep, hsplit]
      refine ⟨fun _ => ⟨_, rfl, by omega, ?_, ?_⟩, fun h => by omega⟩
      · rw [getLsbD_segment] at hbit
        simpa [hlt] using hbit
      · rw [rankRef_add]
        have : rankRef (fun i => y.getLsbD (8 * s + i)) true (lutPos (segment y s) (need - 1)) =
            rankRef (segment y s).getLsbD true (lutPos (segment y s) (need - 1)) :=
          rankRef_congr true fun i hi => by rw [getLsbD_segment]; simp [show i < 8 by omega]
        rw [this, hrank]; omega

/-- SelectOne finds the `n`-th one bit, or reports that the word holds fewer (R89). -/
theorem selectOne_spec (y : Word) (n : Nat) (hn : 1 ≤ n) :
    (n ≤ rankRef y.getLsbD true 64 →
      ∃ p, selectOne y n = .position p ∧ IsSelectRef y.getLsbD 64 true n p) ∧
    (rankRef y.getLsbD true 64 < n → selectOne y n = .notFound) := by
  have h := selectScan_spec y 8 0 n hn
  have hz : (fun i => y.getLsbD (8 * 0 + i)) = y.getLsbD := by funext i; simp
  rw [hz, Nat.mul_zero, rankRef_zero] at h
  refine ⟨fun hle => ?_, h.2⟩
  obtain ⟨p, hp, hlt, hbit, hrank⟩ := h.1 hle
  exact ⟨p, hp, by omega, hbit, by omega⟩

/-- WordSelect finds the `n`-th bit equal to `alpha`, or reports that the word holds fewer (R85). -/
theorem wordSelect_spec (alpha : Bool) (x : Word) (n : Nat) (hn : 1 ≤ n) :
    (n ≤ rankRef x.getLsbD alpha 64 →
      ∃ p, wordSelect alpha x n = .position p ∧ IsSelectRef x.getLsbD 64 alpha n p) ∧
    (rankRef x.getLsbD alpha 64 < n → wordSelect alpha x n = .notFound) := by
  cases alpha with
  | true => exact selectOne_spec x n hn
  | false =>
    have hcomp : ∀ k, k ≤ 64 → rankRef (~~~x).getLsbD true k = rankRef x.getLsbD false k := by
      intro k hk
      rw [← rankRef_not]
      exact rankRef_congr true fun i hi => by rw [BitVec.getLsbD_not]; simp [show i < 64 by omega]
    have h := selectOne_spec (~~~x) n hn
    rw [hcomp 64 (Nat.le_refl _)] at h
    refine ⟨fun hle => ?_, h.2⟩
    obtain ⟨p, hp, hlt, hbit, hrank⟩ := h.1 hle
    refine ⟨p, hp, hlt, ?_, ?_⟩
    · simpa [BitVec.getLsbD_not, hlt] using hbit
    · rw [hcomp p (by omega)] at hrank; exact hrank

/-! ### The word scan of SEL -/

/-- The scan of a block's words from word `w` on, with `acc` occurrences counted, stops at the first word
in which the count reaches `r` and gives the residual inside it, or finds that the words left hold too few
(R144 step 2). -/
theorem scanWords_spec (alpha : Bool) (word : Nat → Word) (r left w acc : Nat) (hr : acc < r) :
    (r ≤ acc + sumBelow (fun j => wordCount alpha (word (w + j))) left →
      ∃ k, k < left ∧
        scanWords alpha word r left w acc =
          some (w + k, r - (acc + sumBelow (fun j => wordCount alpha (word (w + j))) k)) ∧
        acc + sumBelow (fun j => wordCount alpha (word (w + j))) k < r ∧
        r ≤ acc + sumBelow (fun j => wordCount alpha (word (w + j))) (k + 1)) ∧
    (acc + sumBelow (fun j => wordCount alpha (word (w + j))) left < r →
      scanWords alpha word r left w acc = none) := by
  induction left generalizing w acc with
  | zero => simp [sumBelow, scanWords]; omega
  | succ left ih =>
    have hshift : ∀ k, sumBelow (fun j => wordCount alpha (word (w + j))) (k + 1) =
        wordCount alpha (word w) + sumBelow (fun j => wordCount alpha (word (w + 1 + j))) k := by
      intro k
      induction k with
      | zero => simp [sumBelow]
      | succ k ihk =>
        rw [sumBelow_succ, ihk, sumBelow_succ, show w + (k + 1) = w + 1 + k by omega]; omega
    by_cases hc : r ≤ acc + wordCount alpha (word w)
    · refine ⟨fun _ => ⟨0, by omega, by simp [scanWords, hc], by simpa using hr, ?_⟩, fun h => ?_⟩
      · rw [hshift]; simpa using hc
      · rw [hshift] at h; omega
    · have hstep : scanWords alpha word r (left + 1) w acc =
          scanWords alpha word r left (w + 1) (acc + wordCount alpha (word w)) := by
        simp [scanWords, hc]
      obtain ⟨h1, h2⟩ := ih (w + 1) (acc + wordCount alpha (word w)) (by omega)
      rw [hstep, hshift]
      refine ⟨fun h => ?_, fun h => h2 (by omega)⟩
      obtain ⟨k, hk, hscan, hlo, hhi⟩ := h1 (by omega)
      refine ⟨k + 1, by omega, ?_, by rw [hshift]; omega, by rw [hshift]; omega⟩
      rw [hscan, hshift]
      congr 2
      · omega
      · omega

end Sys2Proof.Machine
end

