-- ==== Sys2Proof/Tests/Slice0.lean ====
section
/-! SUPPORT. The model's own tests: well-formedness refuses ill-formed terms, each command decodes from a
word written out from spec/30_encoding.md R64, one step of each command gives the result of
spec/95_test_vectors.md, and for each statement with hypotheses a state and operands that meet them. -/

namespace Sys2Proof.Tests

open Sys2Proof.Machine

/-! ### Small states -/

/-- The state after the three writes of spec/95_test_vectors.md section 2.3. -/
def staged : State :=
  { State.reset with eng :=
    { Engine.reset with fvn := 2, fv := [(0, 0xF000000000000001#64), (1, 0xA#64)] } }

/-- The three blocks of program P3 with the given lifecycle state and counters. -/
def threeBlocks (idx : Lifecycle) (counters : Store) : State :=
  { State.reset with eng :=
    { fvn := 15
      fv := [(0, 0xFFFFFFFFFFFFFFFF#64), (2, 0x8000000000000001#64), (6, 0xF0#64), (7, 1#64),
        (13, 0x8000000000000000#64), (14, 3#64)]
      nblk := 3
      len := 960
      idx := idx
      fatal := false
      blk := [(1, 0xFFFFFFFFFFFFFFFF#64), (2, 2#64), (3, 0x8000000000000001#64), (7, 0xF0#64)]
        ++ (counters.take 1 ++ [(9, 1#64), (15, 0x8000000000000000#64)])
        ++ (counters.drop 1 ++ [(17, 3#64)]) } }

/-- P3 after SET 65 and before PRECOMP. -/
def unindexed : State := threeBlocks .unindexed []

/-- P3 after part (a). -/
def indexed : State := threeBlocks .indexed [(8, 71#64), (16, 73#64)]

/-- The end state of P1, one block. -/
def oneBlock : State :=
  { State.reset with eng :=
    { fvn := 1, fv := [(0, 0xB6#64)], nblk := 1, len := 64, idx := .indexed, fatal := false,
      blk := [(1, 0xB6#64)] } }

/-- The empty vector, indexed: PRECOMP on the reset state (R133). -/
def empty : State := { State.reset with eng := { Engine.reset with idx := .indexed } }

/-- `indexed` with the fatal latch set, which no run reaches. -/
def faulted : State := { indexed with eng := { indexed.eng with fatal := true } }

/-- The response that waits after the command. -/
def answer (i : Instr) (s : State) : Option Response :=
  match exec i s with
  | .next t => t.rsp
  | _ => none

/-- The engine after the command. -/
def after (i : Instr) (s : State) : Option Engine :=
  match exec i s with
  | .next t => some t.eng
  | _ => none

/-- The response that waits after one step that accepts the word. -/
def answerWord (c : CommandWord) (s : State) : Option Response :=
  match step { s with inbox := [.command c] } with
  | .next t => t.rsp
  | _ => none

/-- A store lists nothing past its last listed index. -/
theorem read_past (m : Store) (n : Nat) (h : m.all (fun entry => decide (entry.1 < n)) = true) (a : Nat)
    (ha : n ≤ a) : m.read a = 0#64 := by
  induction m with
  | nil => rfl
  | cons entry rest ih =>
    simp only [List.all_cons, Bool.and_eq_true, decide_eq_true_eq] at h
    rw [Store.read_cons, if_neg (by omega), ih h.2]

/-- The padding words, block by block. -/
theorem padding_of {e : Engine}
    (h : ∀ b, b < e.nblk.toNat → ∀ w, w < 7 → e.len.toNat ≤ 448 * b + 64 * w → e.pay b w = 0#64)
    (b w : Nat) (hb : b < e.nblk.toNat) (hw : w < 7) : e.len.toNat ≤ 448 * b + 64 * w → e.pay b w = 0#64 :=
  h b hb w hw

theorem staged_inv : staged.Inv where
  cfg_valid := by decide
  eng_inv :=
    { fv_wf := by decide
      blk_wf := by decide
      fvn_le := by decide
      fv_inside := fun a ha => read_past _ 64 (by decide) a ha
      blk_inside := fun _ _ => rfl
      size := ⟨0, by decide⟩
      padding := padding_of (by decide)
      presum_indexed := by decide
      presum_unindexed := by decide
      not_fatal := rfl }

theorem unindexed_inv : unindexed.Inv where
  cfg_valid := by decide
  eng_inv :=
    { fv_wf := by decide
      blk_wf := by decide
      fvn_le := by decide
      fv_inside := fun a ha => read_past _ 64 (by decide) a ha
      blk_inside := fun a ha => read_past _ 80 (by decide) a ha
      size := ⟨15, by decide⟩
      padding := padding_of (by decide)
      presum_indexed := by decide
      presum_unindexed := by decide
      not_fatal := rfl }

theorem indexed_inv : indexed.Inv where
  cfg_valid := by decide
  eng_inv :=
    { fv_wf := by decide
      blk_wf := by decide
      fvn_le := by decide
      fv_inside := fun a ha => read_past _ 64 (by decide) a ha
      blk_inside := fun a ha => read_past _ 80 (by decide) a ha
      size := ⟨15, by decide⟩
      padding := padding_of (by decide)
      presum_indexed := by decide
      presum_unindexed := by decide
      not_fatal := rfl }

theorem oneBlock_inv : oneBlock.Inv where
  cfg_valid := by decide
  eng_inv :=
    { fv_wf := by decide
      blk_wf := by decide
      fvn_le := by decide
      fv_inside := fun a ha => read_past _ 64 (by decide) a ha
      blk_inside := fun a ha => read_past _ 80 (by decide) a ha
      size := ⟨1, by decide⟩
      padding := padding_of (by decide)
      presum_indexed := by decide
      presum_unindexed := by decide
      not_fatal := rfl }

theorem empty_inv : empty.Inv where
  cfg_valid := by decide
  eng_inv :=
    { fv_wf := by decide
      blk_wf := by decide
      fvn_le := by decide
      fv_inside := fun _ _ => rfl
      blk_inside := fun _ _ => rfl
      size := ⟨0, by decide⟩
      padding := padding_of (by decide)
      presum_indexed := by decide
      presum_unindexed := by decide
      not_fatal := rfl }

/-! ### Well-formedness refuses ill-formed terms (R65, R67, R75) -/

theorem test_wf_reserved_opcode_refused : CommandWord.wellFormed 0x13#136 = false ∧
    CommandWord.wellFormed (0x53#8 ++ 0#128) = false ∧ CommandWord.wellFormed 0#136 = false := by decide
theorem test_wf_unused_b_refused :
    CommandWord.wellFormed 0x1200000000000000B60000000000000001#136 = false := by decide
theorem test_wf_unused_b_top_bit_refused :
    CommandWord.wellFormed 0x5500000000000000058000000000000000#136 = false := by decide
theorem test_wf_unused_a_refused :
    CommandWord.wellFormed 0x4100000000000000010000000000000000#136 = false := by decide
theorem test_wf_legal_word :
    CommandWord.wellFormed 0x1200000000000000B60000000000000000#136 = true := by decide
theorem test_wf_line_without_suffix_refused :
    AsmLine.wellFormed ⟨.RANK, none, [5]⟩ = false := by decide
theorem test_wf_line_with_suffix_refused :
    AsmLine.wellFormed ⟨.WSELONE, some true, [5, 1]⟩ = false := by decide
theorem test_wf_line_short_of_operands_refused :
    AsmLine.wellFormed ⟨.WSET, none, [5]⟩ = false := by decide
theorem test_wf_line_with_extra_operand_refused :
    AsmLine.wellFormed ⟨.BLD, none, [0]⟩ = false := by decide
theorem test_wf_line_with_wide_operand_refused :
    AsmLine.wellFormed ⟨.ACC, none, [2 ^ 64]⟩ = false ∧
      AsmLine.wellFormed ⟨.ACC, none, [2 ^ 64 - 1]⟩ = true := by decide

/-! ### Decoding: a word written out from R61 and R64 for each constructor -/

theorem test_decode_wset :
    decode 0x108000000000000001000000000000003F#136 = .ok (.wset 0x8000000000000001#64 63#64) := by decide
theorem test_decode_wacc :
    decode 0x1180000000000000010000000000000040#136 = .ok (.wacc 0x8000000000000001#64 64#64) := by decide
theorem test_decode_wcnt :
    decode 0x120000000000FFAADC0000000000000000#136 = .ok (.wcnt 0xFFAADC#64) := by decide
theorem test_decode_wrank :
    decode 0x1400000000000000B60000000000000005#136 = .ok (.wrank false 0xB6#64 5#64) ∧
    decode 0x1500000000000000B60000000000000005#136 = .ok (.wrank true 0xB6#64 5#64) := by decide
theorem test_decode_wsel :
    decode 0x1600000000000000B6000000000000003B#136 = .ok (.wsel false 0xB6#64 59#64) ∧
    decode 0x170000000000FFAADC000000000000000E#136 = .ok (.wsel true 0xFFAADC#64 14#64) := by decide
theorem test_decode_wselone :
    decode 0x18000000000000FF000000000000000008#136 = .ok (.wselone 0xFF00#64 8#64) := by decide
theorem test_decode_lutrd :
    decode 0x2000000000000000B60000000000000004#136 = .ok (.lutrd 0xB6#64 4#64) := by decide
theorem test_decode_fvnew :
    decode 0x30000000000000000F0000000000000000#136 = .ok (.fvnew 15#64) := by decide
theorem test_decode_fvputw :
    decode 0x3100000000000000028000000000000001#136 =
      .ok (.fvputw 2#64 0x8000000000000001#64) := by decide
theorem test_decode_fvset :
    decode 0x32000000000000003B0000000000000000#136 = .ok (.fvset 59#64) := by decide
theorem test_decode_fvunset :
    decode 0x33000000000000003C0000000000000000#136 = .ok (.fvunset 60#64) := by decide
theorem test_decode_fvacc :
    decode 0x3400000000000000410000000000000000#136 = .ok (.fvacc 65#64) := by decide
theorem test_decode_fvcnt : decode 0x3500000000000000000000000000000000#136 = .ok .fvcnt := by decide
theorem test_decode_fvlen : decode 0x3600000000000000000000000000000000#136 = .ok .fvlen := by decide
theorem test_decode_fvext :
    decode 0x37000000000000003C0000000000000008#136 = .ok (.fvext 60#64 8#64) := by decide
theorem test_decode_bld : decode 0x4000000000000000000000000000000000#136 = .ok .bld := by decide
theorem test_decode_bldp : decode 0x4100000000000000000000000000000000#136 = .ok .bldp := by decide
theorem test_decode_precomp :
    decode 0x4200000000000000000000000000000000#136 = .ok .precomp := by decide
theorem test_decode_locate :
    decode 0x50000000000000037F0000000000000000#136 = .ok (.locate 895#64) := by decide
theorem test_decode_acc :
    decode 0x5100000000000000420000000000000000#136 = .ok (.acc 66#64) := by decide
theorem test_decode_set :
    decode 0x5200000000000000410000000000000000#136 = .ok (.set 65#64) := by decide
theorem test_decode_rank :
    decode 0x5400000000000001C00000000000000000#136 = .ok (.rank false 448#64) ∧
    decode 0x5500000000000001C00000000000000000#136 = .ok (.rank true 448#64) := by decide
theorem test_decode_sel :
    decode 0x5600000000000001790000000000000000#136 = .ok (.sel false 377#64) ∧
    decode 0x5700000000000000470000000000000000#136 = .ok (.sel true 71#64) := by decide
theorem test_decode_ovh : decode 0x5800000000000000000000000000000000#136 = .ok .ovh := by decide
theorem test_decode_size : decode 0x5900000000000000000000000000000000#136 = .ok .size := by decide

/-- The ends of every reserved range of R67. -/
theorem test_decode_reserved : ∀ op ∈ [0x00#8, 0x0F#8, 0x13#8, 0x19#8, 0x1F#8, 0x21#8, 0x2F#8, 0x38#8,
    0x3F#8, 0x43#8, 0x4F#8, 0x53#8, 0x5A#8, 0xFF#8],
    decode (commandWord op 0#64 0#64) = .error (.reservedOpcode op) := by decide
theorem test_decode_unused_b : ∀ op ∈ [0x12#8, 0x30#8, 0x32#8, 0x33#8, 0x34#8, 0x50#8, 0x51#8, 0x52#8,
    0x54#8, 0x55#8, 0x56#8, 0x57#8],
    decode (commandWord op 1#64 1#64) = .error (.nonzeroUnusedField op) := by decide
theorem test_decode_unused_a : ∀ op ∈ [0x35#8, 0x36#8, 0x40#8, 0x41#8, 0x42#8, 0x58#8, 0x59#8],
    decode (commandWord op 1#64 0#64) = .error (.nonzeroUnusedField op) ∧
    decode (commandWord op 0#64 1#64) = .error (.nonzeroUnusedField op) := by decide
/-- The host's numbering of a table word: bit 0 is bit 0 of `CMD`. -/
theorem test_decodeTableWord :
    decodeTableWord 136 0x5700000000000000470000000000000000 = some (.sel true 71#64) := by decide

/-! ### One step of each command: spec/95_test_vectors.md -/

/-- Section 2.1. -/
theorem test_wset_high_bit :
    answer (.wset 0#64 63#64) .reset = some ⟨.ok, 0x8000000000000000#64⟩ := by decide
theorem test_wset_range : answer (.wset 0#64 64#64) .reset = some ⟨.errRange, 0#64⟩ := by decide
theorem test_wacc_high_bit :
    answer (.wacc 0x8000000000000001#64 63#64) .reset = some ⟨.ok, 1#64⟩ := by decide
theorem test_wacc_range :
    answer (.wacc 0x8000000000000001#64 64#64) .reset = some ⟨.errRange, 0#64⟩ := by decide
theorem test_wcnt_all : answer (.wcnt 0xFFFFFFFFFFFFFFFF#64) .reset = some ⟨.ok, 64#64⟩ := by decide
theorem test_wcnt_some : answer (.wcnt 0xFFAADC#64) .reset = some ⟨.ok, 17#64⟩ := by decide
theorem test_wrank_zeros : answer (.wrank false 0xB6#64 5#64) .reset = some ⟨.ok, 2#64⟩ := by decide
theorem test_wrank_whole_word :
    answer (.wrank true 0x8000000000000001#64 64#64) .reset = some ⟨.ok, 2#64⟩ ∧
    answer (.wrank true 0x8000000000000001#64 65#64) .reset = some ⟨.errRange, 0#64⟩ := by decide
theorem test_wsel_across_segments :
    answer (.wsel true 0x00FF00FF00FF00FF#64 9#64) .reset = some ⟨.ok, 16#64⟩ := by decide
theorem test_wsel_zeros : answer (.wsel false 0xB6#64 59#64) .reset = some ⟨.ok, 63#64⟩ ∧
    answer (.wsel false 0xB6#64 60#64) .reset = some ⟨.errNotFound, 0#64⟩ := by decide
theorem test_wselone_last : answer (.wselone 0xFF00#64 8#64) .reset = some ⟨.ok, 15#64⟩ := by decide
theorem test_wselone_errors : answer (.wselone 0xFF00#64 9#64) .reset = some ⟨.errNotFound, 0#64⟩ ∧
    answer (.wselone 0xB6#64 0#64) .reset = some ⟨.errNzero, 0#64⟩ := by decide
/-- Section 2.2. -/
theorem test_lutrd_entry : answer (.lutrd 0xB6#64 2#64) .reset = some ⟨.ok, 12#64⟩ := by decide
theorem test_lutrd_invalid_and_range : answer (.lutrd 0xB6#64 5#64) .reset = some ⟨.ok, 0#64⟩ ∧
    answer (.lutrd 256#64 0#64) .reset = some ⟨.errRange, 0#64⟩ ∧
    answer (.lutrd 0#64 8#64) .reset = some ⟨.errRange, 0#64⟩ := by decide
/-- R111: the whole capacity is legal, one more is refused, and shrinking and growing zeroes. -/
theorem test_fvnew_capacity : answer (.fvnew 64#64) .reset = some ⟨.ok, 0#64⟩ ∧
    answer (.fvnew 65#64) .reset = some ⟨.errCap, 0#64⟩ := by decide
theorem test_fvnew_zeroes :
    (after (.fvnew 1#64) staged).map (fun e => (e.fvn, e.fvWord 0)) = some (1#64, 0#64) := by decide
/-- Section 2.3. -/
theorem test_fvputw_writes :
    (after (.fvputw 1#64 0xC#64) staged).map (fun e => (e.fvWord 0, e.fvWord 1)) =
      some (0xF000000000000001#64, 0xC#64) := by decide
theorem test_fvputw_range : answer (.fvputw 2#64 1#64) staged = some ⟨.errRange, 0#64⟩ := by decide
theorem test_fvset_sets :
    (after (.fvset 59#64) staged).map (fun e => e.fvWord 0) = some 0xF800000000000001#64 := by decide
theorem test_fvset_range : answer (.fvset 128#64) staged = some ⟨.errRange, 0#64⟩ := by decide
theorem test_fvunset_clears :
    (after (.fvunset 60#64) staged).map (fun e => e.fvWord 0) = some 0xE000000000000001#64 := by decide
theorem test_fvunset_range : answer (.fvunset 128#64) staged = some ⟨.errRange, 0#64⟩ := by decide
theorem test_fvacc_second_word : answer (.fvacc 65#64) staged = some ⟨.ok, 1#64⟩ := by decide
theorem test_fvacc_range : answer (.fvacc 128#64) staged = some ⟨.errRange, 0#64⟩ := by decide
theorem test_fvcnt_total : answer .fvcnt staged = some ⟨.ok, 7#64⟩ := by decide
theorem test_fvlen_bits : answer .fvlen staged = some ⟨.ok, 128#64⟩ := by decide
theorem test_fvext_straddles : answer (.fvext 60#64 8#64) staged = some ⟨.ok, 0xAF#64⟩ ∧
    answer (.fvext 63#64 64#64) staged = some ⟨.ok, 21#64⟩ ∧
    answer (.fvext 128#64 0#64) staged = some ⟨.ok, 0#64⟩ := by decide
theorem test_fvext_range : answer (.fvext 65#64 64#64) staged = some ⟨.errRange, 0#64⟩ ∧
    answer (.fvext 0#64 65#64) staged = some ⟨.errRange, 0#64⟩ ∧
    answer (.fvext 0xFFFFFFFFFFFFFFFF#64 1#64) staged = some ⟨.errRange, 0#64⟩ := by decide
/-- P3: BLD copies the fifteen words of FV into three blocks, counters zero. -/
theorem test_bld_copies :
    (after .bld indexed).map (fun e => (e.nblk, e.len, e.idx, e.pay 0 1, e.pay 1 6)) =
      some (3#64, 960#64, .unindexed, 0#64, 0x8000000000000000#64) := by decide
theorem test_bld_clears_counters :
    (after .bld indexed).map (fun e => (e.presum 1, e.presum 2)) = some (0#64, 0#64) := by decide
/-- R132 on P3's Flat Vector: 70 ones in words 0 to 6 and 2 in words 7 to 13. -/
theorem test_bldp_counts :
    (after .bldp unindexed).map (fun e => (e.idx, e.presum 0, e.presum 1, e.presum 2)) =
      some (.indexed, 0#64, 70#64, 72#64) := by decide
/-- P3: PRECOMP after SET 65. -/
theorem test_precomp_counts :
    (after .precomp unindexed).map (fun e => (e.idx, e.presum 0, e.presum 1, e.presum 2)) =
      some (.indexed, 0#64, 71#64, 73#64) := by decide
/-- R133 on the reset state, where there is no block, and P3 whole. -/
theorem test_precomp_states : after .precomp .reset = some empty.eng ∧
    after .precomp unindexed = some indexed.eng := by decide
theorem test_locate_packs : answer (.locate 895#64) indexed = some ⟨.ok, 959#64⟩ ∧
    answer (.locate 896#64) indexed = some ⟨.ok, 1024#64⟩ := by decide
theorem test_locate_range : answer (.locate 960#64) indexed = some ⟨.errRange, 0#64⟩ := by decide
theorem test_acc_bits : answer (.acc 65#64) indexed = some ⟨.ok, 1#64⟩ ∧
    answer (.acc 66#64) indexed = some ⟨.ok, 0#64⟩ := by decide
theorem test_acc_range : answer (.acc 960#64) unindexed = some ⟨.errRange, 0#64⟩ := by decide
theorem test_set_sets : (after (.set 66#64) unindexed).map (fun e => e.pay 0 1) = some 6#64 := by decide
theorem test_set_errors : answer (.set 66#64) indexed = some ⟨.errState, 0#64⟩ ∧
    answer (.set 960#64) unindexed = some ⟨.errRange, 0#64⟩ := by decide
theorem test_rank_across_blocks : answer (.rank true 959#64) indexed = some ⟨.ok, 75#64⟩ ∧
    answer (.rank false 448#64) indexed = some ⟨.ok, 377#64⟩ := by decide
theorem test_rank_errors : answer (.rank true 960#64) indexed = some ⟨.errRange, 0#64⟩ ∧
    answer (.rank true 960#64) unindexed = some ⟨.errState, 0#64⟩ := by decide
theorem test_sel_at_counters : answer (.sel true 71#64) indexed = some ⟨.ok, 391#64⟩ ∧
    answer (.sel true 72#64) indexed = some ⟨.ok, 448#64⟩ ∧
    answer (.sel false 378#64) indexed = some ⟨.ok, 449#64⟩ := by decide
theorem test_sel_errors : answer (.sel false 886#64) indexed = some ⟨.errNotFound, 0#64⟩ ∧
    answer (.sel true 0#64) indexed = some ⟨.errNzero, 0#64⟩ ∧
    answer (.sel true 0#64) unindexed = some ⟨.errState, 0#64⟩ := by decide
theorem test_ovh_bits : answer .ovh indexed = some ⟨.ok, 192#64⟩ := by decide
theorem test_size_bits : answer .size indexed = some ⟨.ok, 1536#64⟩ := by decide

/-! ### Steps at the ports -/

theorem test_step_word :
    answerWord 0x1500000000000000B60000000000000005#136 .reset = some ⟨.ok, 3#64⟩ := by decide
theorem test_step_illegal : answerWord 0#136 indexed = some ⟨.errOpcode, 0#64⟩ := by decide
theorem test_step_fatal_outranks : answerWord 0#136 faulted = some ⟨.errFatal, 0#64⟩ ∧
    answerWord 0x1500000000000000B60000000000000005#136 faulted = some ⟨.errFatal, 0#64⟩ := by decide
theorem test_step_reset :
    (match step { faulted with inbox := [.reset] } with
      | .next t => decide (t = .reset)
      | _ => false) = true := by decide
theorem test_withFetchWord :
    (match step (State.reset.withFetchWord 136 0x1500000000000000B60000000000000005) with
      | .next t => t.rsp
      | _ => none) = some ⟨.ok, 3#64⟩ := by decide

/-! ### The assembler: the examples of R75 and R76 -/

theorem test_parse_wrank : parseLine "WRANK.1 0xB6, 5" = .command (.wrank true 0xB6#64 5#64) := by decide
theorem test_parse_comment : parseLine "SEL.0 2 ; the second zero" = .command (.sel false 2#64) ∧
    parseLine "; a comment" = .nothing := by decide
theorem test_parse_alias : parseLine "select true 14" = .command (.sel true 14#64) ∧
    parseLine "access 4" = .command (.acc 4#64) := by decide
theorem test_parse_rejected : parseLine "rank 5" = .rejected ∧ parseLine "RANK 5" = .rejected ∧
    parseLine "bld" = .rejected := by decide

/-! ### Witnesses: a state and operands that meet the hypotheses of each statement, clause by clause -/

theorem witness_EncodeOfDecodeIsTheWord :
    decode 0x37000000000000003C0000000000000008#136 = .ok (.fvext 60#64 8#64) := by decide

theorem witness_OpcodeRowsNeverOverlap :
    (⟨.RANK, 0x5400000000000000000000000000000000#136,
      0xFE0000000000000000FFFFFFFFFFFFFFFF#136⟩ : OpcodeRow) ∈ opcodeTable ∧
    OpcodeRow.accepts ⟨.RANK, 0x5400000000000000000000000000000000#136,
      0xFE0000000000000000FFFFFFFFFFFFFFFF#136⟩ 0x5500000000000000050000000000000000#136 = true := by
  decide

/-- Every alternative at the ends of its range. -/
theorem witness_IllegalWordsAnswerErrOpcode : indexed.eng.fatal = false ∧
    ({ indexed with inbox := [.command 0#136] } : State).inbox = [.command 0#136] ∧
    (∀ op ∈ [0x00#8, 0x0F#8, 0x13#8, 0x19#8, 0x1F#8, 0x21#8, 0x2F#8, 0x38#8, 0x3F#8, 0x43#8, 0x4F#8,
      0x53#8, 0x5A#8, 0xFF#8],
      op.toNat ≤ 0x0F ∨ op.toNat = 0x13 ∨ (0x19 ≤ op.toNat ∧ op.toNat ≤ 0x1F) ∨
      (0x21 ≤ op.toNat ∧ op.toNat ≤ 0x2F) ∨ (0x38 ≤ op.toNat ∧ op.toNat ≤ 0x3F) ∨
      (0x43 ≤ op.toNat ∧ op.toNat ≤ 0x4F) ∨ op.toNat = 0x53 ∨ 0x5A ≤ op.toNat) ∧
    (CommandWord.op 0x1200000000000000B60000000000000001#136).toNat = 0x12 ∧
    CommandWord.b 0x1200000000000000B60000000000000001#136 ≠ 0#64 ∧
    (CommandWord.op 0x5980000000000000000000000000000000#136).toNat = 0x59 ∧
    CommandWord.a 0x5980000000000000000000000000000000#136 ≠ 0#64 := by decide

theorem witness_StepRunsTheDecodedCommand :
    ({ indexed with inbox := [.command (encode (.acc 65#64))] } : State).inbox =
      .command (encode (.acc 65#64)) :: [] ∧
    decode 0x5100000000000000410000000000000000#136 = .ok (.acc 65#64) := by decide

theorem witness_EveryCommandGetsOneResponseInOrder :
    ∃ t, step { indexed with inbox := [.command 0#136], rsp := some ⟨.ok, 5#64⟩ } = .next t ∧
      t.delivered = [⟨.ok, 5#64⟩] ∧ t.rsp = some ⟨.errOpcode, 0#64⟩ :=
  ⟨_, rfl, by decide, by decide⟩

theorem witness_PortsDeliverAndIdle : indexed.inbox = [] ∧
    ({ indexed with inbox := [.takeResponse], rsp := some ⟨.ok, 5#64⟩ } : State).inbox =
      .takeResponse :: [] ∧
    ∃ t, step { indexed with inbox := [.takeResponse, .command 0#136] } = .next t ∧
      t.inbox = [.command 0#136] :=
  ⟨rfl, rfl, _, rfl, rfl⟩

theorem witness_ResetGivesTheResetValues :
    ({ faulted with inbox := [.reset] } : State).inbox = .reset :: [] := by decide

theorem witness_LatchedFatalStopsEverythingButReset : faulted.eng.fatal = true ∧
    ∃ t, step { faulted with inbox := [.command 0#136] } = .next t ∧ t.eng.fatal = true :=
  ⟨rfl, _, rfl, by decide⟩

theorem witness_NoStepSetsFatal : indexed.eng.fatal = false ∧
    ∃ t, step { indexed with inbox := [.command (encode (.sel true 71#64))] } = .next t ∧
      t.rsp = some ⟨.ok, 391#64⟩ :=
  ⟨rfl, _, rfl, by decide⟩

theorem witness_OnlyAWrongTableIsInconsistent : 1 ≤ popcount 0xB6#64 ∧ 5 ≤ popcount 0xB6#64 := by decide

theorem witness_ErrorResponsesChangeNothing :
    (∃ t, step { indexed with inbox := [.command (encode (.rank true 960#64))] } = .next t ∧
      t.rsp = some ⟨.errRange, 0#64⟩) ∧
    (∃ t, step { indexed with inbox := [.command 0#136] } = .next t ∧
      t.rsp = some ⟨.errOpcode, 0#64⟩) ∧
    Status.errRange ≠ .ok ∧ Status.errOpcode ≠ .ok :=
  ⟨⟨_, rfl, by decide⟩, ⟨_, rfl, by decide⟩, by decide, by decide⟩

theorem witness_StatusIsAsTheTableSays : oneBlock.Inv ∧
    failure (.sel true 5#64) oneBlock = none ∧
    failure (.sel true 6#64) oneBlock = some .errNotFound := ⟨oneBlock_inv, by decide, by decide⟩

theorem witness_QueryCommandsLeaveTheState : readOnly (.sel true 71#64) = true ∧
    ∃ t, exec (.sel true 71#64) indexed = .next t := ⟨rfl, _, rfl⟩

theorem witness_WsetSetsOneBit : State.reset.eng.fatal = false ∧ 64 ≤ (64#64).toNat ∧
    (63#64).toNat < 64 := by decide

theorem witness_WaccTestsOneBit : State.reset.eng.fatal = false ∧ 64 ≤ (64#64).toNat ∧
    (63#64).toNat < 64 := by decide

theorem witness_WcntSumsTheBits : State.reset.eng.fatal = false := by decide

theorem witness_WrankCountsBelow : State.reset.eng.fatal = false ∧ 64 < (65#64).toNat ∧
    (64#64).toNat ≤ 64 := by decide

/-- `n` at 0, at the total and one past it. -/
theorem witness_WselFindsTheOccurrence : State.reset.eng.fatal = false ∧
    1 ≤ (59#64).toNat ∧ (59#64).toNat ≤ rankRef (0xB6#64).getLsbD false 64 ∧
    rankRef (0xB6#64).getLsbD false 64 < (60#64).toNat := by decide

theorem witness_WseloneFindsTheOne : State.reset.eng.fatal = false ∧
    1 ≤ (5#64).toNat ∧ (5#64).toNat ≤ rankRef (0xB6#64).getLsbD true 64 ∧
    rankRef (0xB6#64).getLsbD true 64 < (6#64).toNat := by decide

theorem witness_WordRankAndSelectAgree : State.reset.eng.fatal = false ∧
    (63#64).toNat ≤ (64#64).toNat ∧ (64#64).toNat ≤ 64 ∧
    answer (.wrank true 0xB6#64 64#64) .reset = some ⟨.ok, 5#64⟩ ∧
    1 ≤ (5#64).toNat ∧ (5#64).toNat ≤ (5#64).toNat ∧ (5#64).toNat < (6#64).toNat := by decide

/-- Both bounds, and `k` at the count and one below it. -/
theorem witness_LutrdReadsTheEntry : State.reset.eng.fatal = false ∧
    255 < (256#64).toNat ∧ 7 < (8#64).toNat ∧ (255#64).toNat ≤ 255 ∧ (7#64).toNat ≤ 7 ∧
    (7#64).toNat < rankRef (255#64).getLsbD true 8 ∧
    rankRef (0xB6#64).getLsbD true 8 ≤ (5#64).toNat := by decide

theorem witness_TableIsCorrect : 8 ≤ popcount 0xFF#8 ∧ popcount 0x7F#8 < 8 := by decide

theorem witness_FvnewMakesZeroWords : State.reset.eng.fatal = false ∧
    State.reset.cfg.maxW < (65#64).toNat ∧ (64#64).toNat ≤ State.reset.cfg.maxW := by decide

theorem witness_FvputwWritesOneWord : staged.Inv ∧ staged.eng.fvn.toNat ≤ (2#64).toNat ∧
    (1#64).toNat < staged.eng.fvn.toNat := ⟨staged_inv, by decide, by decide⟩

theorem witness_FvsetSetsOneBit : staged.Inv ∧ 64 * staged.eng.fvn.toNat ≤ (128#64).toNat ∧
    (127#64).toNat < 64 * staged.eng.fvn.toNat := ⟨staged_inv, by decide, by decide⟩

theorem witness_FvunsetClearsOneBit : staged.Inv ∧ 64 * staged.eng.fvn.toNat ≤ (128#64).toNat ∧
    (127#64).toNat < 64 * staged.eng.fvn.toNat := ⟨staged_inv, by decide, by decide⟩

theorem witness_FvaccReadsOneBit : staged.eng.fatal = false ∧
    64 * staged.eng.fvn.toNat ≤ (128#64).toNat ∧
    (127#64).toNat < 64 * staged.eng.fvn.toNat := by decide

theorem witness_FvcntCountsAllOnes : staged.eng.fatal = false := by decide

theorem witness_FvlenIsTheBitLength : staged.Inv := staged_inv

/-- Too long, one past the end, and the longest window at the end. -/
theorem witness_FvextExtractsTheWindow : staged.eng.fatal = false ∧ 64 < (65#64).toNat ∧
    64 * staged.eng.fvn.toNat < (65#64).toNat + (64#64).toNat ∧
    (64#64).toNat ≤ 64 ∧ (64#64).toNat + (64#64).toNat ≤ 64 * staged.eng.fvn.toNat := by decide

theorem witness_FlatVectorIsIndependentOfTheIndex :
    (∃ t, exec (.fvset 59#64) indexed = .next t) ∧ (∃ t, exec (.fvset 59#64) unindexed = .next t) ∧
    unindexed.cfg = indexed.cfg ∧ unindexed.eng.fvn = indexed.eng.fvn ∧
    unindexed.eng.fv = indexed.eng.fv ∧ unindexed.eng.fatal = indexed.eng.fatal :=
  ⟨⟨_, rfl⟩, ⟨_, rfl⟩, rfl, rfl, rfl, rfl⟩

/-- Copied words, padding words of the last block, and slots past the last block. -/
theorem witness_BldCopiesAndClearsCounters : indexed.Inv ∧ 7 * 2 + 0 < indexed.eng.fvn.toNat ∧
    ¬ 7 * 2 + 1 < indexed.eng.fvn.toNat := ⟨indexed_inv, by decide, by decide⟩

theorem witness_BldpCopiesAndCounts : unindexed.Inv ∧ 7 * 2 + 0 < unindexed.eng.fvn.toNat ∧
    ¬ 7 * 2 + 1 < unindexed.eng.fvn.toNat := ⟨unindexed_inv, by decide, by decide⟩

theorem witness_PrecompFillsTheCounters : unindexed.Inv ∧ 2 < unindexed.eng.nblk.toNat :=
  ⟨unindexed_inv, by decide⟩

theorem witness_BldpIsBldThenPrecomp : indexed.Inv ∧
    ∃ t u, exec .bld indexed = .next t ∧ exec .precomp t = .next u := ⟨indexed_inv, _, _, rfl, rfl⟩

theorem witness_BuildsCopyEveryBit : indexed.Inv ∧ (∃ t, exec .bld indexed = .next t) ∧
    (∃ t, exec .bldp indexed = .next t) ∧ 959 < 64 * indexed.eng.fvn.toNat :=
  ⟨indexed_inv, ⟨_, rfl⟩, ⟨_, rfl⟩, by decide⟩

theorem witness_LocateDecomposesThePosition : indexed.Inv ∧
    indexed.eng.len.toNat ≤ (960#64).toNat ∧ (959#64).toNat < indexed.eng.len.toNat :=
  ⟨indexed_inv, by decide, by decide⟩

theorem witness_AccReadsOneBit : unindexed.eng.fatal = false ∧
    unindexed.eng.len.toNat ≤ (960#64).toNat ∧ (959#64).toNat < unindexed.eng.len.toNat := by decide

theorem witness_SetSetsOneBitBeforeIndexing : indexed.Inv ∧ indexed.eng.idx = .indexed ∧
    unindexed.Inv ∧ unindexed.eng.idx = .unindexed ∧
    unindexed.eng.len.toNat ≤ (960#64).toNat ∧ (959#64).toNat < unindexed.eng.len.toNat :=
  ⟨indexed_inv, rfl, unindexed_inv, rfl, by decide, by decide⟩

theorem witness_RankIsCorrect : unindexed.Inv ∧ unindexed.eng.idx = .unindexed ∧
    indexed.Inv ∧ indexed.eng.idx = .indexed ∧
    indexed.eng.len.toNat ≤ (960#64).toNat ∧ (959#64).toNat < indexed.eng.len.toNat :=
  ⟨unindexed_inv, rfl, indexed_inv, rfl, by decide, by decide⟩

/-- `n` at the total of ones and one past it. -/
theorem witness_SelectIsCorrect : oneBlock.Inv ∧ oneBlock.eng.idx = .indexed ∧ 1 ≤ (5#64).toNat ∧
    (5#64).toNat ≤ rankRef oneBlock.eng.bit true oneBlock.eng.len.toNat ∧
    rankRef oneBlock.eng.bit true oneBlock.eng.len.toNat < (6#64).toNat :=
  ⟨oneBlock_inv, rfl, by decide, by decide, by decide⟩

theorem witness_SelectChecksStateThenZero : unindexed.eng.fatal = false ∧
    unindexed.eng.idx = .unindexed ∧ indexed.eng.fatal = false ∧ indexed.eng.idx = .indexed := by decide

theorem witness_RanksOfOnesAndZerosSumToThePosition : indexed.Inv ∧ indexed.eng.idx = .indexed ∧
    (959#64).toNat < indexed.eng.len.toNat := ⟨indexed_inv, rfl, by decide⟩

/-- The last one bit, which is not at the last position, and the last zero bit, which is. -/
theorem witness_SelectInvertsRank : oneBlock.Inv ∧ oneBlock.eng.idx = .indexed ∧
    1 ≤ (5#64).toNat ∧ (5#64).toNat ≤ rankRef oneBlock.eng.bit true oneBlock.eng.len.toNat ∧
    answer (.sel true 5#64) oneBlock = some ⟨.ok, 7#64⟩ ∧ 7 + 1 < oneBlock.eng.len.toNat ∧
    answer (.sel false 59#64) oneBlock = some ⟨.ok, 63#64⟩ ∧ 63 + 1 = oneBlock.eng.len.toNat ∧
    (59#64).toNat ≤ rankRef oneBlock.eng.bit false oneBlock.eng.len.toNat :=
  ⟨oneBlock_inv, rfl, by decide, by decide, by decide, by decide, by decide, by decide, by decide⟩

theorem witness_RankIsMonotone : indexed.Inv ∧ indexed.eng.idx = .indexed ∧
    (0#64).toNat ≤ (959#64).toNat ∧ (959#64).toNat < indexed.eng.len.toNat ∧
    (958#64).toNat + 1 < indexed.eng.len.toNat :=
  ⟨indexed_inv, rfl, by decide, by decide, by decide⟩

theorem witness_FirstRankAndFirstSelect :
    empty.Inv ∧ empty.eng.idx = .indexed ∧ empty.eng.len = 0#64 ∧ oneBlock.Inv ∧ oneBlock.eng.idx = .indexed ∧ 0 < oneBlock.eng.len.toNat ∧
    1 ≤ rankRef oneBlock.eng.bit true oneBlock.eng.len.toNat :=
  ⟨empty_inv, rfl, rfl, oneBlock_inv, rfl, by decide, by decide⟩

theorem witness_QueriesAfterABuildMatchTheFlatVector : oneBlock.Inv ∧
    (∃ t, exec .bldp oneBlock = .next t) ∧
    (∃ t u, exec .bld oneBlock = .next u ∧ exec .precomp u = .next t) ∧
    (63#64).toNat < 64 * oneBlock.eng.fvn.toNat ∧ 1 ≤ (5#64).toNat ∧
    (5#64).toNat ≤ rankRef oneBlock.eng.fvBit true (64 * oneBlock.eng.fvn.toNat) :=
  ⟨oneBlock_inv, ⟨_, rfl⟩, ⟨_, _, rfl, rfl⟩, by decide, by decide, by decide⟩

theorem witness_BinarySearchFindsTheLowerBound : 3 < 2 ^ 64 ∧
    ∀ i, i < 3 → ∀ j, j < 3 → i ≤ j →
      indexed.eng.countBefore false i ≤ indexed.eng.countBefore false j := by decide

theorem witness_OverheadAndSizeAreTheBits : indexed.Inv := indexed_inv

theorem witness_LifecycleChangesOnlyByTheTable :
    (∃ t, step { indexed with inbox := [.reset] } = .next t) ∧ indexed.eng.fatal = false ∧
    (∃ t, exec .bld indexed = .next t) ∧ (∃ t, exec .precomp unindexed = .next t) ∧
    (∃ t, exec (.set 66#64) indexed = .next t) :=
  ⟨⟨_, rfl⟩, rfl, ⟨_, rfl⟩, ⟨_, rfl⟩, ⟨_, rfl⟩⟩

theorem witness_IndexedContentIsImmutable : indexed.Inv ∧ indexed.eng.idx = .indexed ∧
    Instr.precomp ≠ .bld ∧ Instr.precomp ≠ .bldp ∧ ∃ t, exec .precomp indexed = .next t :=
  ⟨indexed_inv, rfl, by decide, by decide, _, rfl⟩

theorem witness_EveryStepKeepsTheInvariants : unindexed.Inv ∧
    ∃ t, step { unindexed with inbox := [.command (encode .precomp)] } = .next t ∧
      t.eng.idx = .indexed := ⟨unindexed_inv, _, rfl, by decide⟩

theorem witness_ResetMeetsTheInvariants : Config.Valid ⟨1⟩ ∧ Config.Valid ⟨2 ^ 48⟩ := by decide

end Sys2Proof.Tests
end

section
/-! What a command leaves of the engine, said once for every command and every step. -/

namespace Sys2Proof.Machine

/-! ### The engine a verdict leaves -/

/-- The engine after a verdict on `e` is concluded (R193, R195, R196). -/
def Verdict.engine (e : Engine) : Verdict → Engine
  | .raise _ => e
  | .raiseFatal => { e with fatal := true }
  | .reply e' _ => e'

@[simp] theorem engine_raise (e : Engine) (st : Status) : (Verdict.raise st).engine e = e := rfl

@[simp] theorem engine_reply (e e' : Engine) (val : Word) :
    (Verdict.reply e' val).engine e = e' := rfl

/-- A failed check leaves the engine as it was; a passed one leaves what comes after it. -/
@[simp] theorem engine_check (e : Engine) (c : Prop) [Decidable c] (st : Status) (v : Verdict) :
    (if c then .raise st else v).engine e = if c then e else v.engine e := by
  split <;> rfl

theorem conclude_eng (s : State) (v : Verdict) : (s.conclude v).eng = v.engine s.eng := by
  cases v <;> rfl

/-- A command run with `FATAL = 0` ends in its rule's verdict. -/
theorem perform_ready_next {s t : State} {rule : Engine → Verdict} (hf : s.eng.fatal = false)
    (h : s.perform rule = .next t) : t = s.conclude (rule s.eng) := by
  rw [perform_ready rule hf] at h
  exact (Host.Outcome.next.inj h).symm

/-- The engine after a command: untouched where `FATAL` was latched, else as the verdict leaves it. -/
theorem perform_eng {s t : State} {rule : Engine → Verdict} (h : s.perform rule = .next t) :
    t.eng = s.eng ∨ t.eng = (rule s.eng).engine s.eng := by
  cases hf : s.eng.fatal with
  | true =>
    rw [perform_fatal rule hf] at h
    exact .inl (by rw [← Host.Outcome.next.inj h, respond_eng])
  | false => exact .inr (by rw [perform_ready_next hf h, conclude_eng])

/-- A command whose verdict leaves the engine leaves it, latched or not. -/
theorem perform_keeps_eng {s t : State} {rule : Engine → Verdict} (h : s.perform rule = .next t)
    (hkeeps : (rule s.eng).engine s.eng = s.eng) : t.eng = s.eng :=
  (perform_eng h).elim id fun heng => heng.trans hkeeps

/-! ### No select detects an inconsistency (R88) -/

theorem wordSelect_ne_inconsistent (alpha : Bool) (x : Word) {n : Nat} (hn : 1 ≤ n) :
    wordSelect alpha x n ≠ .inconsistent := by
  obtain ⟨hfound, hfew⟩ := wordSelect_spec alpha x n hn
  rcases Nat.lt_or_ge (rankRef x.getLsbD alpha 64) n with hlt | hge
  · simp [hfew hlt]
  · obtain ⟨p, hp, _⟩ := hfound hge
    simp [hp]

theorem engine_selectVerdict (e : Engine) {r : SelectResult} (h : r ≠ .inconsistent) :
    (selectVerdict e r).engine e = e := by
  cases r with
  | position p => rfl
  | notFound => rfl
  | inconsistent => exact absurd rfl h

/-- A word select command checks `n ≠ 0` first, so it leaves the engine as it was (R85, R87). -/
theorem engine_wordSelect (e : Engine) (alpha : Bool) (x n : Word) :
    (if n = 0#64 then Verdict.raise .errNzero
      else selectVerdict e (wordSelect alpha x n.toNat)).engine e = e := by
  rw [engine_check]
  split
  · rfl
  · next hn =>
    have hpos : 1 ≤ n.toNat := Nat.pos_of_ne_zero fun h => hn (BitVec.eq_of_toNat_eq h)
    exact engine_selectVerdict e (wordSelect_ne_inconsistent alpha x hpos)

/-- Where the lower bound moved at all, the count just before it is under `n`, whatever the counts. -/
theorem lowerBound_eq_or_lt (count : Nat → Nat) (n fuel lo hi : Nat) :
    lowerBound count n fuel lo hi = lo ∨ count (lowerBound count n fuel lo hi - 1) < n := by
  induction fuel generalizing lo hi with
  | zero => exact .inl rfl
  | succ fuel ih =>
    rw [lowerBound]
    split
    · dsimp only
      split
      · next hmid =>
        rcases ih ((lo + hi) / 2 + 1) hi with heq | hlt
        · exact .inr (by rw [heq]; exact hmid)
        · exact .inr hlt
      · exact ih lo ((lo + hi) / 2)
    · exact .inl rfl

/-- The block before the boundary block holds fewer than `n` occurrences before it (R144). -/
theorem countBefore_lt_of_boundaryBlock {e : Engine} {alpha : Bool} {n b : Nat}
    (h : e.boundaryBlock alpha n = b + 1) : e.countBefore alpha b < n := by
  rcases lowerBound_eq_or_lt (e.countBefore alpha) n 64 0 e.nblk.toNat with heq | hlt
  · exact absurd (h.symm.trans heq) (Nat.succ_ne_zero b)
  · rwa [show lowerBound (e.countBefore alpha) n 64 0 e.nblk.toNat = b + 1 from h] at hlt

/-- The word scan stops with at least one occurrence still to find (R144). -/
theorem scanWords_residual_pos {alpha : Bool} {word : Nat → Word} {r left w acc w' residual : Nat}
    (hr : acc < r) (h : scanWords alpha word r left w acc = some (w', residual)) :
    1 ≤ residual := by
  obtain ⟨hfound, hfew⟩ := scanWords_spec alpha word r left w acc hr
  rcases Nat.lt_or_ge (acc + sumBelow (fun j => wordCount alpha (word (w + j))) left) r with hlt | hge
  · simp [hfew hlt] at h
  · obtain ⟨k, _, hscan, hlo, _⟩ := hfound hge
    rw [hscan, Option.some.injEq, Prod.mk.injEq] at h
    omega

theorem engine_selectInBlock {e : Engine} {alpha : Bool} {n b : Nat}
    (hb : e.countBefore alpha b < n) : (e.selectInBlock alpha n b).engine e = e := by
  rw [Engine.selectInBlock]
  split
  · rfl
  · next w residual hscan =>
    have hpos : 1 ≤ residual := scanWords_residual_pos (by omega) hscan
    split
    · dsimp only; split <;> rfl
    · rfl
    · next hsel => exact absurd hsel (wordSelect_ne_inconsistent alpha _ hpos)

/-- The rule of SEL leaves the engine as it was, in every state (R144). -/
theorem execSel_eng {alpha : Bool} {n : Word} {s t : State} (h : execSel alpha n s = .next t) :
    t.eng = s.eng := by
  refine perform_keeps_eng h ?_
  rw [engine_check, engine_check]
  split
  · rfl
  · split
    · rfl
    · split
      · rfl
      · next hb => exact engine_selectInBlock (countBefore_lt_of_boundaryBlock hb)

/-! ### The commands that leave the engine as it is -/

/-- A query command writes nothing, in any state (R170). -/
theorem exec_readOnly_eng {i : Instr} {s t : State} (hi : readOnly i = true)
    (h : exec i s = .next t) : t.eng = s.eng := by
  cases i with
  | wsel alpha x n =>
    exact perform_keeps_eng (show execWsel alpha x n s = .next t from h)
      (engine_wordSelect s.eng alpha x n)
  | wselone y n =>
    exact perform_keeps_eng (show execWselone y n s = .next t from h)
      (engine_wordSelect s.eng true y n)
  | sel alpha n => exact execSel_eng (show execSel alpha n s = .next t from h)
  | wset | wacc | wcnt | wrank | lutrd | fvacc | fvcnt | fvlen | fvext | locate | acc | rank | ovh
  | size =>
    simp only [exec, execWset, execWacc, execWcnt, execWrank, execLutrd, execFvacc, execFvcnt,
      execFvlen, execFvext, execLocate, execAcc, execRank, execOvh, execSize] at h
    exact perform_keeps_eng h (by simp)
  | fvnew | fvputw | fvset | fvunset | bld | bldp | precomp | set => cases hi

/-! ### Every effect of a command -/

/-- The engine after a build with block store `blk` and lifecycle state `idx` (R131, R132). -/
def Engine.rebuild (e : Engine) (blk : Store) (idx : Lifecycle) : Engine :=
  { e with nblk := result e.blocksNeeded, blk := blk, len := result e.fvBits, idx := idx }

/-- The engine after PRECOMP (R133). -/
def Engine.precomputed (e : Engine) : Engine :=
  { e with blk := (precompPass e.blk e.nblk.toNat).1, idx := .indexed }

/-- What a command can leave of the engine: it stays as it is, or the command passed its checks and
writes what its rule says. -/
inductive Effect (cfg : Config) (e : Engine) : Instr → Engine → Prop where
  | unchanged (i : Instr) : Effect cfg e i e
  | fvnew {n : Word} (hn : n.toNat ≤ cfg.maxW) :
      Effect cfg e (.fvnew n) { e with fvn := n, fv := e.fv.clearBelow n.toNat }
  | fvputw {j v : Word} (hj : j.toNat < e.fvn.toNat) :
      Effect cfg e (.fvputw j v) (e.setFvWord j.toNat v)
  | fvset {p : Word} (hp : p.toNat / 64 < e.fvn.toNat) :
      Effect cfg e (.fvset p)
        (e.setFvWord (p.toNat / 64) (wordSet (e.fvWord (p.toNat / 64)) (p.toNat % 64)))
  | fvunset {p : Word} (hp : p.toNat / 64 < e.fvn.toNat) :
      Effect cfg e (.fvunset p)
        (e.setFvWord (p.toNat / 64) (wordClear (e.fvWord (p.toNat / 64)) (p.toNat % 64)))
  | bld : Effect cfg e .bld (e.rebuild (bldPass e.inputWord e.blk e.blocksNeeded) .unindexed)
  | bldp : Effect cfg e .bldp (e.rebuild (bldpPass e.inputWord e.blk e.blocksNeeded).1 .indexed)
  | precomp : Effect cfg e .precomp e.precomputed
  | set {p : Word} (hidx : e.idx = .unindexed) (hp : p.toNat < e.len.toNat) :
      Effect cfg e (.set p)
        (e.setPay (locate p.toNat).block (locate p.toNat).word
          (wordSet (e.pay (locate p.toNat).block (locate p.toNat).word) (locate p.toNat).bit))

/-- A command that first checks `c` has the effects of what comes after the check. -/
theorem Effect.of_check {cfg : Config} {e : Engine} {i : Instr} {c : Prop} [Decidable c] {st : Status}
    {v : Verdict} (h : ¬c → Effect cfg e i (v.engine e)) :
    Effect cfg e i ((if c then .raise st else v).engine e) := by
  rw [engine_check]
  split
  · exact .unchanged i
  · next hc => exact h hc

/-- The effect of a command is that of its rule's verdict. -/
theorem Effect.of_perform {cfg : Config} {i : Instr} {s t : State} {rule : Engine → Verdict}
    (h : s.perform rule = .next t) (heff : Effect cfg s.eng i ((rule s.eng).engine s.eng)) :
    Effect cfg s.eng i t.eng := by
  rcases perform_eng h with heng | heng
  · rw [heng]; exact .unchanged i
  · rw [heng]; exact heff

/-- The word of a position that passes the check against `64 × FVN` is in the vector (R24). -/
theorem div_lt_fvn {e : Engine} {p : Nat} (h : ¬e.fvBits ≤ p) : p / 64 < e.fvn.toNat := by
  rw [Engine.fvBits] at h; omega

theorem Lifecycle.eq_unindexed {idx : Lifecycle} (h : ¬idx = .indexed) : idx = .unindexed := by
  cases idx with
  | unindexed => rfl
  | indexed => exact absurd rfl h

/-- Every command has one of the effects, from every state. -/
theorem exec_effect {i : Instr} {s t : State} (h : exec i s = .next t) :
    Effect s.cfg s.eng i t.eng := by
  cases hro : readOnly i with
  | true => rw [exec_readOnly_eng hro h]; exact .unchanged i
  | false =>
    cases i with
    | fvnew n =>
      exact .of_perform (show execFvnew n s = .next t from h)
        (.of_check fun hn => .fvnew (Nat.not_lt.1 hn))
    | fvputw j v =>
      exact .of_perform (show execFvputw j v s = .next t from h)
        (.of_check fun hj => .fvputw (Nat.not_le.1 hj))
    | fvset p =>
      exact .of_perform (show execFvset p s = .next t from h)
        (.of_check fun hp => .fvset (div_lt_fvn hp))
    | fvunset p =>
      exact .of_perform (show execFvunset p s = .next t from h)
        (.of_check fun hp => .fvunset (div_lt_fvn hp))
    | bld =>
      exact .of_perform (show execBld s = .next t from h) .bld
    | bldp =>
      exact .of_perform (show execBldp s = .next t from h) .bldp
    | precomp =>
      exact .of_perform (show execPrecomp s = .next t from h) .precomp
    | set p =>
      exact .of_perform (show execSet p s = .next t from h) (.of_check fun hidx => .of_check fun hp =>
        .set (Lifecycle.eq_unindexed hidx) (Nat.not_le.1 hp))
    | wset | wacc | wcnt | wrank | wsel | wselone | lutrd | fvacc | fvcnt | fvlen | fvext | locate
    | acc | rank | sel | ovh | size => cases hro

/-- Every step keeps the parameter; the engine is as it was, as after reset, or has the effect of a
command. -/
theorem step_effect {s t : State} (h : step s = .next t) :
    t.cfg = s.cfg ∧
      (t.eng = s.eng ∨ t.eng = Engine.reset ∨ ∃ i, Effect s.cfg s.eng i t.eng) := by
  cases hin : s.inbox with
  | nil =>
    rw [step_idle hin] at h
    obtain rfl := Host.Outcome.next.inj h
    exact ⟨rfl, .inl rfl⟩
  | cons event rest =>
    cases event with
    | command c =>
      rw [step_command hin] at h
      obtain ⟨rule, hrule⟩ := runWord_eq_perform { s with inbox := rest } c
      obtain ⟨hcfg, _⟩ := perform_frame (hrule ▸ h)
      refine ⟨hcfg, ?_⟩
      cases hdec : decode c with
      | ok i =>
        rw [runWord_ok hdec] at h
        exact .inr (.inr ⟨i, exec_effect (s := { s with inbox := rest }) h⟩)
      | error err =>
        rw [runWord_error hdec] at h
        exact .inl (or_self_iff.1 (perform_eng h))
    | takeResponse =>
      rw [step_takeResponse hin] at h
      obtain rfl := Host.Outcome.next.inj h
      exact ⟨rfl, .inl rfl⟩
    | reset =>
      rw [step_reset hin] at h
      obtain rfl := Host.Outcome.next.inj h
      exact ⟨rfl, .inr (.inl rfl)⟩

end Sys2Proof.Machine
end

section
/-! The invariants and each effect of a command: what the Flat Vector commands, the builds, PRECOMP and
SET keep. -/

namespace Sys2Proof.Machine

/-! ### Sizes and sums that fit in 64 bits (R12, R90) -/

/-- A block of the input holds at most `448 = 7 × 64` ones. -/
theorem inputOnes_le (input : Nat → Word) (b : Nat) : inputOnes input b ≤ 448 :=
  sumBelow_le fun _ _ => popcount_le _

/-- A stored block holds at most `448 = 7 × 64` ones. -/
theorem storedOnes_le (m : Store) (b : Nat) : storedOnes m b ≤ 448 :=
  sumBelow_le fun _ _ => popcount_le _

/-- The ones of at most `2^48` blocks are a 64-bit number. -/
theorem result_sumBelow_ones {ones : Nat → Nat} (h : ∀ b, ones b ≤ 448) {n : Nat}
    (hn : n ≤ 2 ^ 48) : (result (sumBelow ones n)).toNat = sumBelow ones n := by
  have hle : sumBelow ones n ≤ n * 448 := sumBelow_le fun b _ => h b
  exact result_toNat (by omega)

section Sizes
variable {cfg : Config} {e : Engine} (hcfg : cfg.Valid) (hinv : e.Inv cfg)
include hcfg hinv

theorem fvn_le_capacity : e.fvn.toNat ≤ 2 ^ 48 := hinv.fvn_le.trans hcfg.2

theorem nblk_le_capacity : e.nblk.toNat ≤ 2 ^ 48 := by
  obtain ⟨n, hn, _, hnblk⟩ := hinv.size
  have hmax : n ≤ 2 ^ 48 := hn.trans hcfg.2
  omega

theorem blocksNeeded_le_capacity : e.blocksNeeded ≤ 2 ^ 48 := by
  have hfvn := fvn_le_capacity hcfg hinv
  rw [Engine.blocksNeeded]; omega

theorem result_blocksNeeded : (result e.blocksNeeded).toNat = e.blocksNeeded := by
  have hblocks := blocksNeeded_le_capacity hcfg hinv
  exact result_toNat (by omega)

theorem result_fvBits : (result e.fvBits).toNat = 64 * e.fvn.toNat := by
  have hfvn := fvn_le_capacity hcfg hinv
  exact result_toNat (by rw [Engine.fvBits]; omega)

end Sizes

/-! ### What the passes leave, by block and word -/

section Slots
variable {b w n : Nat}

theorem presumSlot_div : presumSlot b / 8 = b := by simp only [presumSlot]; omega

theorem presumSlot_mod : presumSlot b % 8 = 0 := by simp only [presumSlot]; omega

theorem presumSlot_lt (hb : b < n) : presumSlot b < 8 * n := by simp only [presumSlot]; omega

theorem paySlot_div (hw : w < 7) : paySlot b w / 8 = b := by simp only [paySlot]; omega

theorem paySlot_mod (hw : w < 7) : paySlot b w % 8 = w + 1 := by simp only [paySlot]; omega

theorem paySlot_lt (hb : b < n) (hw : w < 7) : paySlot b w < 8 * n := by
  simp only [paySlot]; omega

end Slots

section Passes
variable (input : Nat → Word) {m : Store} (hm : m.wf = true) {n b w : Nat}
include hm

theorem bldPass_pay (hb : b < n) (hw : w < 7) :
    (bldPass input m n).read (paySlot b w) = input (7 * b + w) := by
  rw [read_bldPass input m n _ hm, if_pos (paySlot_lt hb hw), paySlot_mod hw, paySlot_div hw,
    if_neg (Nat.succ_ne_zero w), Nat.add_sub_cancel]

theorem bldPass_presum (hb : b < n) : (bldPass input m n).read (presumSlot b) = 0#64 := by
  rw [read_bldPass input m n _ hm, if_pos (presumSlot_lt hb), if_pos presumSlot_mod]

theorem bldPass_rest {a : Nat} (ha : 8 * n ≤ a) : (bldPass input m n).read a = m.read a := by
  rw [read_bldPass input m n _ hm, if_neg (Nat.not_lt.2 ha)]

theorem bldpPass_pay (hb : b < n) (hw : w < 7) :
    (bldpPass input m n).1.read (paySlot b w) = input (7 * b + w) := by
  rw [read_bldpPass input m n _ hm, if_pos (paySlot_lt hb hw), paySlot_mod hw, paySlot_div hw,
    if_neg (Nat.succ_ne_zero w), Nat.add_sub_cancel]

theorem bldpPass_presum (hb : b < n) :
    (bldpPass input m n).1.read (presumSlot b) = result (sumBelow (inputOnes input) b) := by
  rw [read_bldpPass input m n _ hm, if_pos (presumSlot_lt hb), if_pos presumSlot_mod, presumSlot_div]

theorem bldpPass_rest {a : Nat} (ha : 8 * n ≤ a) : (bldpPass input m n).1.read a = m.read a := by
  rw [read_bldpPass input m n _ hm, if_neg (Nat.not_lt.2 ha)]

/-- The blocks BLDP stores hold the ones of the input it counted. -/
theorem storedOnes_bldpPass (hb : b < n) :
    storedOnes (bldpPass input m n).1 b = inputOnes input b :=
  sumBelow_congr fun _ hw => by rw [bldpPass_pay input hm hb hw]

theorem precompPass_pay (hw : w < 7) :
    (precompPass m n).1.read (paySlot b w) = m.read (paySlot b w) := by
  have hslot : ¬(paySlot b w < 8 * n ∧ paySlot b w % 8 = 0) := fun h =>
    Nat.succ_ne_zero w ((paySlot_mod hw).symm.trans h.2)
  rw [(precompPass_spec m n hm).2, if_neg hslot]

theorem precompPass_presum (hb : b < n) :
    (precompPass m n).1.read (presumSlot b) = result (sumBelow (storedOnes m) b) := by
  rw [(precompPass_spec m n hm).2, if_pos ⟨presumSlot_lt hb, presumSlot_mod⟩, presumSlot_div]

theorem precompPass_rest {a : Nat} (ha : 8 * n ≤ a) : (precompPass m n).1.read a = m.read a := by
  rw [(precompPass_spec m n hm).2, if_neg (by omega)]

/-- PRECOMP writes counters alone, so every block holds the ones it held. -/
theorem storedOnes_precompPass : storedOnes (precompPass m n).1 = storedOnes m :=
  funext fun _ => sumBelow_congr fun _ hw => by rw [precompPass_pay hm hw]

end Passes

/-! ### The Flat Vector commands -/

/-- Any legal Flat Vector may stand beside the Indexed Vector: the invariants do not relate the two. -/
theorem Engine.Inv.withFlatVector {cfg : Config} {e : Engine} (hinv : e.Inv cfg) {n : Word}
    {fv : Store} (hn : n.toNat ≤ cfg.maxW) (hwf : fv.wf = true)
    (hinside : ∀ a, cfg.maxW ≤ a → fv.read a = 0#64) : Engine.Inv cfg { e with fvn := n, fv := fv } :=
  { hinv with fvn_le := hn, fv_wf := hwf, fv_inside := hinside }

theorem Engine.Inv.fvnew {cfg : Config} {e : Engine} (hinv : e.Inv cfg) {n : Word}
    (hn : n.toNat ≤ cfg.maxW) :
    Engine.Inv cfg { e with fvn := n, fv := e.fv.clearBelow n.toNat } := by
  refine hinv.withFlatVector hn (Store.clearBelow_wf _ _ hinv.fv_wf) fun a ha => ?_
  rw [Store.read_clearBelow, hinv.fv_inside a ha, ite_self]

theorem Engine.Inv.setFvWord {cfg : Config} {e : Engine} (hinv : e.Inv cfg) {i : Nat} (v : Word)
    (hi : i < e.fvn.toNat) : (e.setFvWord i v).Inv cfg := by
  have hcap := hinv.fvn_le
  refine hinv.withFlatVector hcap (Store.write_wf _ _ _ hinv.fv_wf) fun a ha => ?_
  rw [Store.read_write_other _ _ (show a ≠ i by omega), hinv.fv_inside a ha]

/-! ### The builds -/

/-- A build keeps the invariants when it stores the input's payload, leaves every slot past the last
block, and leaves the counters its lifecycle state asks for (R131, R132). -/
theorem Engine.Inv.rebuild {cfg : Config} {e : Engine} (hcfg : cfg.Valid) (hinv : e.Inv cfg)
    {blk : Store} {idx : Lifecycle} (hwf : blk.wf = true)
    (hpay : ∀ b w, b < e.blocksNeeded → w < 7 → blk.read (paySlot b w) = e.inputWord (7 * b + w))
    (hrest : ∀ a, 8 * e.blocksNeeded ≤ a → blk.read a = e.blk.read a)
    (hindexed : idx = .indexed → ∀ b, b < e.blocksNeeded →
      (blk.read (presumSlot b)).toNat = sumBelow (storedOnes blk) b)
    (hunindexed : idx = .unindexed → ∀ b, b < e.blocksNeeded → blk.read (presumSlot b) = 0#64) :
    (e.rebuild blk idx).Inv cfg := by
  have hnblk : (e.rebuild blk idx).nblk.toNat = e.blocksNeeded := result_blocksNeeded hcfg hinv
  have hlen : (e.rebuild blk idx).len.toNat = 64 * e.fvn.toNat := result_fvBits hcfg hinv
  have hfvn := hinv.fvn_le
  exact
    { fv_wf := hinv.fv_wf
      blk_wf := hwf
      fvn_le := hinv.fvn_le
      fv_inside := hinv.fv_inside
      blk_inside := fun a ha => by
        have hpast : 8 * e.blocksNeeded ≤ a := by
          rw [Config.maxB] at ha; rw [Engine.blocksNeeded]; omega
        exact (hrest a hpast).trans (hinv.blk_inside a ha)
      size := ⟨e.fvn.toNat, hfvn, hlen, hnblk⟩
      padding := fun b w hb hw hpad => by
        rw [hnblk] at hb
        rw [hlen] at hpad
        have hpast : ¬7 * b + w < e.fvn.toNat := by omega
        exact (hpay b w hb hw).trans (if_neg hpast)
      presum_indexed := fun hidx b hb => hindexed hidx b (hnblk ▸ hb)
      presum_unindexed := fun hidx b hb => hunindexed hidx b (hnblk ▸ hb)
      not_fatal := hinv.not_fatal }

theorem Engine.Inv.bld {cfg : Config} {e : Engine} (hcfg : cfg.Valid) (hinv : e.Inv cfg) :
    (e.rebuild (bldPass e.inputWord e.blk e.blocksNeeded) .unindexed).Inv cfg :=
  hinv.rebuild hcfg (bldPass_wf _ _ _ hinv.blk_wf)
    (fun _ _ hb hw => bldPass_pay _ hinv.blk_wf hb hw)
    (fun _ ha => bldPass_rest _ hinv.blk_wf ha)
    (fun hidx => nomatch hidx)
    (fun _ _ hb => bldPass_presum _ hinv.blk_wf hb)

theorem Engine.Inv.bldp {cfg : Config} {e : Engine} (hcfg : cfg.Valid) (hinv : e.Inv cfg) :
    (e.rebuild (bldpPass e.inputWord e.blk e.blocksNeeded).1 .indexed).Inv cfg := by
  refine hinv.rebuild hcfg (bldpPass_wf _ _ _ hinv.blk_wf)
    (fun _ _ hb hw => bldpPass_pay _ hinv.blk_wf hb hw)
    (fun _ ha => bldpPass_rest _ hinv.blk_wf ha)
    (fun _ b hb => ?_)
    (fun hidx => nomatch hidx)
  have hcap := blocksNeeded_le_capacity hcfg hinv
  rw [bldpPass_presum _ hinv.blk_wf hb,
    result_sumBelow_ones (inputOnes_le _) (show b ≤ 2 ^ 48 by omega)]
  exact sumBelow_congr fun j hj => (storedOnes_bldpPass _ hinv.blk_wf (hj.trans hb)).symm

/-! ### PRECOMP and SET -/

theorem Engine.Inv.precomputed {cfg : Config} {e : Engine} (hcfg : cfg.Valid) (hinv : e.Inv cfg) :
    e.precomputed.Inv cfg :=
  { hinv with
    blk_wf := precompPass_wf _ _ hinv.blk_wf
    blk_inside := fun a ha => by
      obtain ⟨n, hn, _, hnblk⟩ := hinv.size
      have hpast : 8 * e.nblk.toNat ≤ a := by rw [Config.maxB] at ha; omega
      exact (precompPass_rest hinv.blk_wf hpast).trans (hinv.blk_inside a ha)
    padding := fun b w hb hw hpad =>
      (precompPass_pay hinv.blk_wf hw).trans (hinv.padding b w hb hw hpad)
    presum_indexed := fun _ b hb => by
      have hcap : e.nblk.toNat ≤ 2 ^ 48 := nblk_le_capacity hcfg hinv
      have hb' : b < e.nblk.toNat := hb
      calc ((precompPass e.blk e.nblk.toNat).1.read (presumSlot b)).toNat
        _ = (result (sumBelow (storedOnes e.blk) b)).toNat := by
            rw [precompPass_presum hinv.blk_wf hb']
        _ = sumBelow (storedOnes e.blk) b :=
            result_sumBelow_ones (storedOnes_le _) (by omega)
        _ = sumBelow (storedOnes (precompPass e.blk e.nblk.toNat).1) b := by
            rw [storedOnes_precompPass hinv.blk_wf]
    presum_unindexed := fun hidx => nomatch hidx }

/-- Writing the payload word of a legal position keeps the invariants while unindexed: the word is no
counter, no padding word, and inside the block store (R140, R142). -/
theorem Engine.Inv.setPay {cfg : Config} {e : Engine} (hinv : e.Inv cfg) {p : Nat} (v : Word)
    (hidx : e.idx = .unindexed) (hp : p < e.len.toNat) :
    (e.setPay (locate p).block (locate p).word v).Inv cfg := by
  have hblock := locate_block_lt e hinv hp
  have hword := locate_word_lt p
  have hpos := locate_inverse p
  have hbit := locate_bit_lt p
  obtain ⟨n, hn, hlen, hnblk⟩ := hinv.size
  have hother {a : Nat} (ha : a ≠ paySlot (locate p).block (locate p).word) :
      (e.setPay (locate p).block (locate p).word v).blk.read a = e.blk.read a :=
    Store.read_write_other _ v ha
  exact
    { hinv with
      blk_wf := Store.write_wf _ _ _ hinv.blk_wf
      blk_inside := fun a ha => by
        have hinside : a ≠ paySlot (locate p).block (locate p).word := by
          simp only [paySlot]; rw [Config.maxB] at ha; omega
        exact (hother hinside).trans (hinv.blk_inside a ha)
      padding := fun b w hb hw hpad => by
        have hpad' : e.len.toNat ≤ 448 * b + 64 * w := hpad
        have hslot : paySlot b w ≠ paySlot (locate p).block (locate p).word := by
          simp only [paySlot]; omega
        exact (hother hslot).trans (hinv.padding b w hb hw hpad)
      presum_indexed := fun h => absurd (hidx.symm.trans h) (by decide)
      presum_unindexed := fun _ b hb => by
        have hslot : presumSlot b ≠ paySlot (locate p).block (locate p).word := by
          simp only [presumSlot, paySlot]; omega
        exact (hother hslot).trans (hinv.presum_unindexed hidx b hb) }

/-! ### Every effect, every step -/

theorem Effect.inv {cfg : Config} {e e' : Engine} {i : Instr} (heff : Effect cfg e i e')
    (hcfg : cfg.Valid) (hinv : e.Inv cfg) : e'.Inv cfg := by
  cases heff with
  | unchanged => exact hinv
  | fvnew hn => exact hinv.fvnew hn
  | fvputw hj => exact hinv.setFvWord _ hj
  | fvset hp => exact hinv.setFvWord _ hp
  | fvunset hp => exact hinv.setFvWord _ hp
  | bld => exact hinv.bld hcfg
  | bldp => exact hinv.bldp hcfg
  | precomp => exact hinv.precomputed hcfg
  | set hidx hp => exact hinv.setPay _ hidx hp

/-- The engine after reset has the invariants, whatever the capacity (R210). -/
theorem Engine.reset_inv (cfg : Config) : Engine.reset.Inv cfg where
  fv_wf := rfl
  blk_wf := rfl
  fvn_le := Nat.zero_le _
  fv_inside _ _ := rfl
  blk_inside _ _ := rfl
  size := ⟨0, Nat.zero_le _, rfl, rfl⟩
  padding _ _ _ _ _ := rfl
  presum_indexed hidx := nomatch hidx
  presum_unindexed _ _ _ := rfl
  not_fatal := rfl

/-- Settles O58: a step keeps the parameter, and the engine it leaves is the one before it, the reset
engine, or a command's effect, each of which has the invariants. -/
theorem everyStepKeepsTheInvariants : Obligations.EveryStepKeepsTheInvariants := by
  intro s t hinv h
  obtain ⟨hcfg_valid, heng_inv⟩ := hinv
  obtain ⟨hcfg, heng⟩ := step_effect h
  refine ⟨hcfg ▸ hcfg_valid, hcfg ▸ ?_⟩
  rcases heng with hsame | hreset | ⟨i, heff⟩
  · rw [hsame]; exact heng_inv
  · rw [hreset]; exact Engine.reset_inv s.cfg
  · exact heff.inv hcfg_valid heng_inv

/-! ### The lifecycle and the indexed content -/

/-- No command but BLD, BLDP and PRECOMP writes the lifecycle state (R29). -/
theorem Effect.idx_eq {cfg : Config} {e e' : Engine} {i : Instr} (heff : Effect cfg e i e')
    (hbld : i ≠ .bld) (hbldp : i ≠ .bldp) (hprecomp : i ≠ .precomp) : e'.idx = e.idx := by
  cases heff with
  | unchanged | fvnew | fvputw | fvset | fvunset | set => rfl
  | bld => exact absurd rfl hbld
  | bldp => exact absurd rfl hbldp
  | precomp => exact absurd rfl hprecomp

/-- While indexed no command but BLD and BLDP writes the content: the Flat Vector commands do not touch
it, PRECOMP writes counters, and SET is refused (R32). -/
theorem Effect.content_eq {cfg : Config} {e e' : Engine} {i : Instr} (heff : Effect cfg e i e')
    (hwf : e.blk.wf = true) (hidx : e.idx = .indexed) (hbld : i ≠ .bld) (hbldp : i ≠ .bldp) :
    (∀ b w, w < 7 → e'.pay b w = e.pay b w) ∧ e'.nblk = e.nblk ∧ e'.len = e.len := by
  cases heff with
  | unchanged | fvnew | fvputw | fvset | fvunset => exact ⟨fun _ _ _ => rfl, rfl, rfl⟩
  | bld => exact absurd rfl hbld
  | bldp => exact absurd rfl hbldp
  | precomp => exact ⟨fun _ _ hw => precompPass_pay hwf hw, rfl, rfl⟩
  | set hunindexed => exact absurd (hidx.symm.trans hunindexed) (by decide)

/-- Settles O56: reset, BLD, BLDP and PRECOMP write the lifecycle state, no other effect does, and SET is
refused before it looks at its position. -/
theorem lifecycleChangesOnlyByTheTable : Obligations.LifecycleChangesOnlyByTheTable := by
  constructor
  · intro s t rest hin h
    rw [step_reset hin] at h
    obtain rfl := Host.Outcome.next.inj h
    rfl
  · intro i s t hf h
    refine ⟨?_, ?_, ?_, ?_⟩
    · rintro rfl
      rw [perform_ready_next hf (show execBld s = .next t from h)]
      rfl
    · rintro (rfl | rfl)
      · rw [perform_ready_next hf (show execBldp s = .next t from h)]
        rfl
      · rw [perform_ready_next hf (show execPrecomp s = .next t from h)]
        rfl
    · intro hbld hbldp hprecomp
      exact (exec_effect h).idx_eq hbld hbldp hprecomp
    · rintro p rfl hidx
      rw [perform_ready_next hf (show execSet p s = .next t from h)]
      simp [hidx, State.conclude]

/-- Settles O57, by the effects a command can have on an indexed engine. -/
theorem indexedContentIsImmutable : Obligations.IndexedContentIsImmutable := by
  intro i s t hinv hidx hbld hbldp h
  exact (exec_effect h).content_eq hinv.eng_inv.blk_wf hidx hbld hbldp

end Sys2Proof.Machine
end

section
/-! The decoder and the encoder are inverse to each other, and both agree with the opcode table's rows
(R61, R64, R65, R67). -/

namespace Sys2Proof

open Machine (disassemble)

/-! ### Decoding and encoding -/

theorem decode_commandWord (op : BitVec 8) (a b : Word) :
    decode (commandWord op a b) = decodeFields op a b := by
  simp [decode]

/-- The encoder's opcode, with `alpha` in its lowest bit, leads the decoder back to the command, and the
zeros in the unused fields pass its check (R64, R65). -/
theorem decode_encode (i : Instr) : decode (encode i) = .ok i := by
  cases i with
  | wrank alpha | wsel alpha | rank alpha | sel alpha =>
    cases alpha <;> exact decode_commandWord _ _ _
  | wset | wacc | wcnt | wselone | lutrd | fvnew | fvputw | fvset | fvunset | fvacc | fvcnt | fvlen
  | fvext | bld | bldp | precomp | locate | acc | set | ovh | size => exact decode_commandWord _ _ _

/-- Settles O1: every arm of the encoder is read back by the decoder's arm of the same opcode. -/
theorem decodeOfEncodeIsTheCommand : Obligations.DecodeOfEncodeIsTheCommand :=
  decode_encode

theorem eq_ofNat_of_toNat {op : BitVec 8} {n : Nat} (h : op.toNat = n) : op = BitVec.ofNat 8 n := by
  rw [← h, BitVec.ofNat_toNat, BitVec.setWidth_eq]

/-- What an arm of the decoder lets pass is a word that its command encodes to: the arm's opcode is the
command's, and a field that the command does not use has passed the check for zero (R64, R65). -/
theorem encode_of_decodeFields {op : BitVec 8} {a b : Word} {i : Instr}
    (h : decodeFields op a b = .ok i) : encode i = commandWord op a b := by
  unfold decodeFields at h
  split at h
  -- no arm: a reserved opcode
  case h_30 => cases h
  all_goals
    rename_i hop
    obtain rfl := eq_ofNat_of_toNat hop
  -- both fields are operands
  case h_1 | h_2 | h_4 | h_5 | h_6 | h_7 | h_8 | h_9 | h_11 | h_17 =>
    cases h
    rfl
  -- `B` is unused: WCNT, the one-operand commands of the Flat Vector and the queries
  case h_3 | h_10 | h_12 | h_13 | h_14 | h_21 | h_22 | h_23 | h_24 | h_25 | h_26 | h_27 =>
    obtain ⟨rfl, rfl⟩ := whenZero_ok h
    rfl
  -- both fields are unused
  case h_15 | h_16 | h_18 | h_19 | h_20 | h_28 | h_29 =>
    obtain ⟨rfl, rfl, rfl⟩ := whenBothZero_ok h
    rfl

theorem encode_of_decode {c : CommandWord} {i : Instr} (h : decode c = .ok i) : encode i = c :=
  (encode_of_decodeFields h).trans (commandWord_fields c)

/-- Settles O2, by the arms of the decoder. -/
theorem encodeOfDecodeIsTheWord : Obligations.EncodeOfDecodeIsTheWord := by
  intro c i h
  exact encode_of_decode h

/-! ### The rows of the opcode table -/

theorem commandWord_inj {op op' : BitVec 8} {a a' b b' : Word} :
    commandWord op a b = commandWord op' a' b' ↔ op = op' ∧ a = a' ∧ b = b' := by
  constructor
  · intro h
    exact ⟨by simpa using congrArg CommandWord.op h, by simpa using congrArg CommandWord.a h,
      by simpa using congrArg CommandWord.b h⟩
  · rintro ⟨rfl, rfl, rfl⟩
    rfl

/-- A row tests the three fields of a word apart from each other (R61). -/
theorem OpcodeRow.accepts_iff (r : OpcodeRow) (c : CommandWord) : r.accepts c = true ↔
    c.op &&& r.mask.op = r.value.op ∧ c.a &&& r.mask.a = r.value.a ∧
      c.b &&& r.mask.b = r.value.b := by
  rw [OpcodeRow.accepts, beq_iff_eq, ← commandWord_inj, ← Laws.WordLegal.commandWord_and,
    commandWord_fields, commandWord_fields, commandWord_fields]

/-- The opcode of the row's command with this `alpha`, which stands in the bit that the row's mask leaves
free, where there is one (R63, R64). -/
def OpcodeRow.opcode (r : OpcodeRow) (alpha : Bool) : BitVec 8 :=
  r.value.op ||| (if alpha then ~~~r.mask.op else 0#8)

/-- An operand under its field of the row's mask: kept where the mask is zero, and zero elsewhere. -/
def maskedOperand (mask x : Word) : Word := if mask = 0#64 then x else 0#64

/-- What the table's rows have in common: the mask leaves no bit of the opcode free or the lowest one, and
tests all of an operand or nothing of it, against zero (R64, R65). -/
theorem opcodeTable_fields : ∀ r ∈ opcodeTable,
    (r.mask.op = 0xFF#8 ∨ r.mask.op = 0xFE#8) ∧
    (r.mask.a = 0#64 ∨ r.mask.a = BitVec.allOnes 64) ∧ r.value.a = 0#64 ∧
    (r.mask.b = 0#64 ∨ r.mask.b = BitVec.allOnes 64) ∧ r.value.b = 0#64 := by
  decide

theorem and_one_eq_alphaOf (op : BitVec 8) : op &&& 1#8 = if alphaOf op then 1#8 else 0#8 := by
  rw [BitVec.and_one_eq_setWidth_ofBool_getLsbD, alphaOf]
  cases op.getLsbD 0 <;> rfl

/-- An opcode that the row accepts is the row's, with its own lowest bit as `alpha`. -/
theorem OpcodeRow.eq_opcode {r : OpcodeRow} {op : BitVec 8}
    (hmask : r.mask.op = 0xFF#8 ∨ r.mask.op = 0xFE#8) (h : op &&& r.mask.op = r.value.op) :
    op = r.opcode (alphaOf op) := by
  have hfree : op &&& ~~~r.mask.op = if alphaOf op then ~~~r.mask.op else 0#8 := by
    rcases hmask with hm | hm <;> rw [hm]
    · exact BitVec.and_zero.trans (ite_self _).symm
    · exact and_one_eq_alphaOf op
  calc op = (op &&& r.mask.op) ||| (op &&& ~~~r.mask.op) := by
        rw [← BitVec.and_or_distrib_left, BitVec.or_not_self, BitVec.and_allOnes]
    _ = r.opcode (alphaOf op) := by rw [h, hfree, OpcodeRow.opcode]

theorem eq_maskedOperand {mask x : Word} (hmask : mask = 0#64 ∨ mask = BitVec.allOnes 64)
    (h : x &&& mask = 0#64) : x = maskedOperand mask x := by
  rcases hmask with rfl | rfl
  · rfl
  · rw [BitVec.and_allOnes] at h
    exact h

/-- The decoder has the row's command for every word with the row's opcode and its unused fields zero. -/
theorem decodeFields_row {r : OpcodeRow} (hr : r ∈ opcodeTable) (alpha : Bool) (a b : Word) :
    ∃ i, decodeFields (r.opcode alpha) (maskedOperand r.mask.a a) (maskedOperand r.mask.b b) = .ok i ∧
      (disassemble i).mnemonic = r.mnemonic := by
  simp only [opcodeTable, wordRows, lookupRows, flatRows, buildRows, queryRows, List.cons_append,
    List.nil_append] at hr
  fin_cases hr <;> cases alpha <;> exact ⟨_, rfl, rfl⟩

/-- A word that a row accepts decodes to a command of the row's mnemonic (R64). -/
theorem decode_of_accepts {r : OpcodeRow} {c : CommandWord} (hr : r ∈ opcodeTable)
    (h : r.accepts c = true) : ∃ i, decode c = .ok i ∧ (disassemble i).mnemonic = r.mnemonic := by
  obtain ⟨hmaskOp, hmaskA, hvalueA, hmaskB, hvalueB⟩ := opcodeTable_fields r hr
  obtain ⟨hop, ha, hb⟩ := (r.accepts_iff c).1 h
  have hrow := decodeFields_row hr (alphaOf c.op) c.a c.b
  rwa [← OpcodeRow.eq_opcode hmaskOp hop, ← eq_maskedOperand hmaskA (ha.trans hvalueA),
    ← eq_maskedOperand hmaskB (hb.trans hvalueB)] at hrow

/-- The word of every command is in the table: the law of each row, for any command (R64). -/
theorem wellFormed_encode : ∀ i : Instr, (encode i).wellFormed = true
  | .wset x n => Laws.WordLegal.wset x n
  | .wacc x n => Laws.WordLegal.wacc x n
  | .wcnt p => Laws.WordLegal.wcnt p
  | .wrank alpha x n => Laws.WordLegal.wrank alpha x n
  | .wsel alpha x n => Laws.WordLegal.wsel alpha x n
  | .wselone x n => Laws.WordLegal.wselone x n
  | .lutrd x n => Laws.WordLegal.lutrd x n
  | .fvnew p => Laws.WordLegal.fvnew p
  | .fvputw x n => Laws.WordLegal.fvputw x n
  | .fvset p => Laws.WordLegal.fvset p
  | .fvunset p => Laws.WordLegal.fvunset p
  | .fvacc p => Laws.WordLegal.fvacc p
  | .fvcnt => Laws.WordLegal.fvcnt
  | .fvlen => Laws.WordLegal.fvlen
  | .fvext x n => Laws.WordLegal.fvext x n
  | .bld => Laws.WordLegal.bld
  | .bldp => Laws.WordLegal.bldp
  | .precomp => Laws.WordLegal.precomp
  | .locate p => Laws.WordLegal.locate p
  | .acc p => Laws.WordLegal.acc p
  | .set p => Laws.WordLegal.set p
  | .rank alpha p => Laws.WordLegal.rank alpha p
  | .sel alpha p => Laws.WordLegal.sel alpha p
  | .ovh => Laws.WordLegal.ovh
  | .size => Laws.WordLegal.size

/-- Settles O3: a decoded word is its command's own, which is in the table, and each row's words decode. -/
theorem decoderAcceptsExactlyTheTable : Obligations.DecoderAcceptsExactlyTheTable := by
  intro c
  constructor
  · rintro ⟨i, h⟩
    rw [← encode_of_decode h]
    exact wellFormed_encode i
  · intro h
    obtain ⟨r, hr, haccepts⟩ := List.any_eq_true.1 h
    obtain ⟨i, hdecode, _⟩ := decode_of_accepts hr haccepts
    exact ⟨i, hdecode⟩

theorem eq_of_mnemonic_eq : ∀ r ∈ opcodeTable, ∀ r' ∈ opcodeTable,
    r.mnemonic = r'.mnemonic → r = r' := by
  decide

/-- Settles O4: a word decodes to one command, whose mnemonic names the row. -/
theorem opcodeRowsNeverOverlap : Obligations.OpcodeRowsNeverOverlap := by
  intro c r r' hr hr' h h'
  obtain ⟨i, hdecode, hmnemonic⟩ := decode_of_accepts hr h
  obtain ⟨i', hdecode', hmnemonic'⟩ := decode_of_accepts hr' h'
  obtain rfl : i = i' := Except.ok.inj (hdecode.symm.trans hdecode')
  exact eq_of_mnemonic_eq r hr r' hr' (hmnemonic.symm.trans hmnemonic')

/-! ### Words that are refused -/

/-- The words that R67 names: the opcode is in a reserved range, or it is listed and a field that R64
marks "—" is not zero. -/
def IllegalWord (c : CommandWord) : Prop :=
  c.op.toNat ≤ 0x0F ∨ c.op.toNat = 0x13 ∨ (0x19 ≤ c.op.toNat ∧ c.op.toNat ≤ 0x1F) ∨
    (0x21 ≤ c.op.toNat ∧ c.op.toNat ≤ 0x2F) ∨ (0x38 ≤ c.op.toNat ∧ c.op.toNat ≤ 0x3F) ∨
    (0x43 ≤ c.op.toNat ∧ c.op.toNat ≤ 0x4F) ∨ c.op.toNat = 0x53 ∨ 0x5A ≤ c.op.toNat ∨
    (c.op.toNat ∈ [0x12, 0x30, 0x32, 0x33, 0x34, 0x50, 0x51, 0x52, 0x54, 0x55, 0x56, 0x57] ∧
      c.b ≠ 0#64) ∨
    (c.op.toNat ∈ [0x35, 0x36, 0x40, 0x41, 0x42, 0x58, 0x59] ∧ (c.a ≠ 0#64 ∨ c.b ≠ 0#64))

theorem not_illegalWord_encode (i : Instr) : ¬IllegalWord (encode i) := by
  cases i with
  | wrank alpha | wsel alpha | rank alpha | sel alpha =>
    cases alpha <;> simp [IllegalWord, encode, alphaOp]
  | wset | wacc | wcnt | wselone | lutrd | fvnew | fvputw | fvset | fvunset | fvacc | fvcnt | fvlen
  | fvext | bld | bldp | precomp | locate | acc | set | ovh | size => simp [IllegalWord, encode]

/-- An illegal word is refused: a word that decodes is a command's, and no command's word is illegal. -/
theorem decode_of_illegalWord {c : CommandWord} (h : IllegalWord c) :
    ∃ err, decode c = .error err := by
  cases hdecode : decode c with
  | ok i => exact absurd (encode_of_decode hdecode ▸ h) (not_illegalWord_encode i)
  | error err => exact ⟨err, rfl⟩

/-! ### Words written out -/

/-- Settles O6, by evaluating the decoder. -/
theorem writtenOutWordsDecode : Obligations.WrittenOutWordsDecode := by
  unfold Obligations.WrittenOutWordsDecode
  decide

end Sys2Proof
end

section
/-! How a step answers the word it accepts, and how the ports move the responses (R60, R62, R66, R67). -/

namespace Sys2Proof.Machine

/-! ### Accepting a word -/

/-- With `FATAL = 0` an illegal word is answered `ERR_OPCODE` (R66 step 2). -/
theorem performIllegal_ready {s : State} (h : s.eng.fatal = false) :
    s.performIllegal = .next (s.respond s.eng .errOpcode 0#64) :=
  perform_ready _ h

/-- Settles O5: an illegal word does not decode, so the step answers it as illegal. -/
theorem illegalWordsAnswerErrOpcode : Obligations.IllegalWordsAnswerErrOpcode := by
  refine ⟨?_, rfl⟩
  intro s c rest hfatal hin hillegal
  obtain ⟨err, hdecode⟩ := decode_of_illegalWord hillegal
  rw [step_command hin, runWord_error hdecode]
  exact performIllegal_ready (s := { s with inbox := rest }) hfatal

theorem step_of_decode {s : State} {c : CommandWord} {rest : List HostEvent} {i : Instr}
    (hin : s.inbox = .command c :: rest) (hdecode : decode c = .ok i) :
    step s = exec i { s with inbox := rest } := by
  rw [step_command hin, runWord_ok hdecode]

/-- Settles O9: the second clause is the first at the command's own word, which decodes to it. -/
theorem stepRunsTheDecodedCommand : Obligations.StepRunsTheDecodedCommand := by
  constructor
  · intro s c rest i hin hdecode
    exact step_of_decode hin hdecode
  · intro s rest i hin
    exact step_of_decode hin (decode_encode i)

/-- Settles O10: every word is run by the one shared operation, which answers once and keeps the rest. -/
theorem everyCommandGetsOneResponseInOrder : Obligations.EveryCommandGetsOneResponseInOrder := by
  intro s t c rest hin h
  rw [step_command hin] at h
  obtain ⟨rule, hrule⟩ := runWord_eq_perform { s with inbox := rest } c
  rw [hrule] at h
  obtain ⟨hcfg, hinbox, hdelivered, hrsp⟩ := perform_frame h
  exact ⟨hinbox, hcfg, hdelivered, hrsp⟩

/-! ### Taking the response first -/

/-- An answer delivers the response that waits, so taking it first makes no difference (R60). -/
theorem respond_deliver (s : State) (e : Engine) (st : Status) (val : Word) :
    s.deliver.respond e st val = s.respond e st val := by
  simp [State.respond, State.deliver]

theorem conclude_deliver (s : State) (v : Verdict) : s.deliver.conclude v = s.conclude v := by
  cases v <;> exact respond_deliver s _ _ _

theorem perform_deliver (s : State) (rule : Engine → Verdict) :
    s.deliver.perform rule = s.perform rule := by
  simp only [State.perform, deliver_eng, respond_deliver, conclude_deliver]

theorem exec_deliver (i : Instr) (s : State) : exec i s.deliver = exec i s := by
  obtain ⟨rule, hrule⟩ := exec_rule i
  rw [hrule, hrule, deliver_cfg, perform_deliver]

theorem runWord_deliver (s : State) (c : CommandWord) : s.deliver.runWord c = s.runWord c := by
  cases hdecode : decode c with
  | ok i => rw [runWord_ok hdecode, runWord_ok hdecode, exec_deliver]
  | error err =>
    rw [runWord_error hdecode, runWord_error hdecode]
    exact perform_deliver s _

/-- Settles O11: the first two clauses are the step's own arms; in the third the word is run after the
delivery, which makes no difference to it. -/
theorem portsDeliverAndIdle : Obligations.PortsDeliverAndIdle := by
  refine ⟨?_, ?_, ?_⟩
  · intro s hin
    exact step_idle hin
  · intro s rest hin
    exact ⟨_, step_takeResponse hin, rfl, rfl, rfl, rfl, rfl⟩
  · intro s t c rest hin h
    rw [step_takeResponse rfl] at h
    obtain rfl := Host.Outcome.next.inj h
    rw [step_command hin, step_command rfl]
    exact runWord_deliver { s with inbox := rest } c

/-! ### The response word -/

/-- The status with a code, where a code that R190 does not list is read as `ERR_FATAL`. -/
def Status.ofCode (code : BitVec 8) : Status :=
  match code.toNat with
  | 0x00 => .ok
  | 0x01 => .errOpcode
  | 0x02 => .errState
  | 0x03 => .errNzero
  | 0x04 => .errRange
  | 0x05 => .errCap
  | 0x06 => .errNotFound
  | _ => .errFatal

theorem ofCode_code : Function.LeftInverse Status.ofCode Status.code := by
  intro st
  cases st <;> rfl

/-- Settles O8: the two fields stand beside each other, and a code is read back as its status. -/
theorem responseWordCarriesCodeAndValue : Obligations.ResponseWordCarriesCodeAndValue := by
  constructor
  · intro r
    exact ⟨BitVec.extractLsb'_append_eq_left, BitVec.extractLsb'_append_eq_right⟩
  · intro st st' h
    exact ofCode_code.injective h

end Sys2Proof.Machine
end

section
/-! The assembler reads back the line that writes a command (R75). -/

namespace Sys2Proof.Machine

theorem alpha_disassemble (i : Instr) :
    (disassemble i).alpha.isSome = (disassemble i).mnemonic.takesAlpha := by
  cases i <;> rfl

theorem length_disassemble (i : Instr) :
    (disassemble i).operands.length = (disassemble i).mnemonic.arity := by
  cases i <;> rfl

/-- Every operand that is written is the number of a word, so it fits its field (R61). -/
theorem operand_lt_of_disassemble (i : Instr) : ∀ n ∈ (disassemble i).operands, n < 2 ^ 64 := by
  cases i with
  | wset x y | wacc x y | wrank _ x y | wsel _ x y | wselone x y | lutrd x y | fvputw x y
  | fvext x y => exact List.forall_mem_cons.2 ⟨x.isLt, List.forall_mem_singleton.2 y.isLt⟩
  | wcnt x | fvnew x | fvset x | fvunset x | fvacc x | locate x | acc x | set x | rank _ x
  | sel _ x => exact List.forall_mem_singleton.2 x.isLt
  | fvcnt | fvlen | bld | bldp | precomp | ovh | size => exact List.forall_mem_nil _

theorem wellFormed_disassemble (i : Instr) : (disassemble i).wellFormed = true := by
  simpa [AsmLine.wellFormed, alpha_disassemble, length_disassemble] using operand_lt_of_disassemble i

/-- Settles O7: the line is well formed, and an operand written as a number is read as the same word. -/
theorem assembleOfDisassembleIsTheCommand : Obligations.AssembleOfDisassembleIsTheCommand := by
  intro i
  rw [assemble, if_pos (wellFormed_disassemble i)]
  cases i <;> simp [disassemble, BitVec.ofNat_toNat]

end Sys2Proof.Machine
end

section
/-! The Word unit: what its commands answer, and that no run meets an inconsistent table (R80 to R89). -/

namespace Sys2Proof.Machine

/-! ### The answer of a command that leaves the engine -/

/-- With `FATAL = 0` a rule that raises an error is answered with it, and nothing is written (R193). -/
theorem perform_raise {s : State} {rule : Engine → Verdict} {st : Status}
    (hfatal : s.eng.fatal = false) (h : rule s.eng = .raise st) :
    s.perform rule = .next (s.respond s.eng st 0#64) := by
  rw [perform_ready rule hfatal, h]
  rfl

/-- With `FATAL = 0` a rule that replies is answered `OK` (R66 step 5). -/
theorem perform_reply {s : State} {rule : Engine → Verdict} {e : Engine} {val : Word}
    (hfatal : s.eng.fatal = false) (h : rule s.eng = .reply e val) :
    s.perform rule = .next (s.respond e .ok val) := by
  rw [perform_ready rule hfatal, h]
  rfl

/-! ### The fatal latch and the table (R88) -/

/-- No command's effect writes `FATAL`. -/
theorem Effect.fatal_eq {cfg : Config} {e e' : Engine} {i : Instr} (heff : Effect cfg e i e') :
    e'.fatal = e.fatal := by
  cases heff <;> rfl

/-- Settles O15: the engine after a step is the one before it, the reset engine, or a command's effect,
and none of them writes `FATAL`. -/
theorem noStepSetsFatal : Obligations.NoStepSetsFatal := by
  intro s t hfatal h
  obtain ⟨_, hsame | hreset | ⟨i, heff⟩⟩ := step_effect h
  · rw [hsame]; exact hfatal
  · rw [hreset]; rfl
  · rw [heff.fatal_eq]; exact hfatal

/-- The ones from segment `s` on are those of the segment and those from the next one on. -/
theorem rankRef_segment_succ (y : Word) (s left : Nat) :
    rankRef (fun i => y.getLsbD (8 * s + i)) true (8 * (left + 1)) =
      popcount (segment y s) + rankRef (fun i => y.getLsbD (8 * (s + 1) + i)) true (8 * left) := by
  rw [show 8 * (left + 1) = 8 + 8 * left by omega, rankRef_add, popcount_segment]
  congr 1
  exact rankRef_congr true fun i _ => by congr 1; omega

/-- With a table that has no valid entry the loop of SelectOne ends at the segment of the occurrence it
looks for, and answers the inconsistency there. -/
theorem selectScan_inconsistent {table : BitVec 8 → Nat → LutEntry}
    (htable : ∀ v k, (table v k).valid = false) (y : Word) (left s need : Nat) (hneed : 1 ≤ need)
    (h : need ≤ rankRef (fun i => y.getLsbD (8 * s + i)) true (8 * left)) :
    selectScan table y left s need = .inconsistent := by
  induction left generalizing s need with
  | zero =>
    rw [Nat.mul_zero, rankRef_zero] at h
    omega
  | succ left ih =>
    rw [rankRef_segment_succ] at h
    by_cases hc : popcount (segment y s) < need
    · simpa [selectScan, hc] using ih (s + 1) (need - popcount (segment y s)) (by omega) (by omega)
    · simp [selectScan, hc, htable]

/-- Settles O16: an invalid table stops the loop at the occurrence's segment, and the constant table is
valid there. -/
theorem onlyAWrongTableIsInconsistent : Obligations.OnlyAWrongTableIsInconsistent := by
  constructor
  · intro y n hn hle
    refine selectScan_inconsistent (fun _ _ => rfl) y 8 0 n hn ?_
    simpa [popcount_eq_rankRef] using hle
  · intro y n hn
    exact wordSelect_ne_inconsistent true y hn

/-! ### One bit, and counts of bits -/

/-- Settles O20: the check of `p` decides, and the word that passes it is the model's WordSet. -/
theorem wsetSetsOneBit : Obligations.WsetSetsOneBit := by
  refine ⟨fun x p => decode_encode (.wset x p), fun s x p hfatal => ?_⟩
  rw [exec, execWset]
  refine ⟨fun hp => perform_raise hfatal (if_pos hp), fun hp => ?_⟩
  exact ⟨wordSet x p.toNat, perform_reply hfatal (if_neg (Nat.not_le.2 hp)),
    fun k _ => getLsbD_wordSet x p.toNat k hp⟩

/-- Settles O21: the check of `p` decides, and the answer is bit `p` as a Boolean result. -/
theorem waccTestsOneBit : Obligations.WaccTestsOneBit := by
  refine ⟨fun x p => decode_encode (.wacc x p), fun s x p hfatal => ?_⟩
  rw [exec, execWacc]
  exact ⟨fun hp => perform_raise hfatal (if_pos hp),
    fun hp => perform_reply hfatal (if_neg (Nat.not_le.2 hp))⟩

/-- A count of ones is the sum of the bits (R17). -/
theorem rankRef_true_eq_sum (bits : Nat → Bool) (p : Nat) :
    rankRef bits true p = ∑ k ∈ Finset.range p, (bits k).toNat := by
  induction p with
  | zero => exact rankRef_zero bits true
  | succ p ih => rw [rankRef_succ, ih, Finset.sum_range_succ]; cases bits p <;> rfl

/-- Settles O22: the population count is a count of ones, so the sum of the bits. -/
theorem wcntSumsTheBits : Obligations.WcntSumsTheBits := by
  refine ⟨fun x => decode_encode (.wcnt x), fun s x hfatal => ?_⟩
  rw [exec, execWcnt, ← rankRef_true_eq_sum, ← popcount_eq_rankRef]
  exact perform_reply hfatal rfl

/-- Settles O23: the check of `n` decides, and WordRank is the count of the positions below `n`. -/
theorem wrankCountsBelow : Obligations.WrankCountsBelow := by
  refine ⟨fun x n => ⟨decode_encode (.wrank false x n), decode_encode (.wrank true x n)⟩,
    fun s alpha x n hfatal => ?_⟩
  rw [exec, execWrank]
  refine ⟨fun hn => perform_raise hfatal (if_pos hn), fun hn => ?_⟩
  rw [← wordRank_eq_rankRef alpha x n.toNat hn]
  exact perform_reply hfatal (if_neg (Nat.not_lt.2 hn))

/-! ### The word selects -/

section Wsel
variable {s : State} (alpha : Bool) (x : Word) {n : Word} (hfatal : s.eng.fatal = false)
include hfatal

theorem exec_wsel_zero : exec (.wsel alpha x 0#64) s = .next (s.respond s.eng .errNzero 0#64) := by
  rw [exec, execWsel]
  exact perform_raise hfatal (if_pos rfl)

/-- For `n ≥ 1` WSEL answers what WordSelect finds (R85). -/
theorem exec_wsel_of_pos (hn : 1 ≤ n.toNat) : exec (.wsel alpha x n) s =
    .next (s.conclude (selectVerdict s.eng (wordSelect alpha x n.toNat))) := by
  have hne : n ≠ 0#64 := by
    rintro rfl
    exact absurd hn (by decide)
  rw [exec, execWsel, perform_ready _ hfatal, if_neg hne]

theorem exec_wsel_found (hn : 1 ≤ n.toNat) (hle : n.toNat ≤ rankRef x.getLsbD alpha 64) :
    ∃ p, IsSelectRef x.getLsbD 64 alpha n.toNat p ∧
      exec (.wsel alpha x n) s = .next (s.respond s.eng .ok (BitVec.ofNat 64 p)) := by
  obtain ⟨p, hp, href⟩ := (wordSelect_spec alpha x n.toNat hn).1 hle
  refine ⟨p, href, ?_⟩
  rw [exec_wsel_of_pos alpha x hfatal hn, hp]
  rfl

theorem exec_wsel_notFound (hlt : rankRef x.getLsbD alpha 64 < n.toNat) :
    exec (.wsel alpha x n) s = .next (s.respond s.eng .errNotFound 0#64) := by
  have hn : 1 ≤ n.toNat := Nat.one_le_of_lt hlt
  rw [exec_wsel_of_pos alpha x hfatal hn, (wordSelect_spec alpha x n.toNat hn).2 hlt]
  rfl

end Wsel

/-- Settles O24: the check of `n` decides, then WordSelect finds the occurrence or finds too few. -/
theorem wselFindsTheOccurrence : Obligations.WselFindsTheOccurrence := by
  refine ⟨fun x n => ⟨decode_encode (.wsel false x n), decode_encode (.wsel true x n)⟩,
    fun s alpha x n hfatal => ⟨?_, exec_wsel_found alpha x hfatal, exec_wsel_notFound alpha x hfatal⟩⟩
  rintro rfl
  exact exec_wsel_zero alpha x hfatal

/-- WSELONE is WSEL of ones (R87). -/
theorem exec_wselone (y n : Word) (s : State) : exec (.wselone y n) s = exec (.wsel true y n) s :=
  rfl

/-- Settles O25: every clause is that of WSEL for ones. -/
theorem wseloneFindsTheOne : Obligations.WseloneFindsTheOne := by
  refine ⟨fun y n => decode_encode (.wselone y n), fun s y n hfatal => ?_⟩
  rw [exec_wselone]
  exact ⟨by rintro rfl; exact exec_wsel_zero true y hfatal, exec_wsel_found true y hfatal,
    exec_wsel_notFound true y hfatal, rfl⟩

end Sys2Proof.Machine
end

section
/-! The Lookup Table: what an entry holds, and what LUTRD answers (R100 to R104). -/

namespace Sys2Proof.Machine

/-! ### The entries -/

section Lut
variable {v : BitVec 8} {k : Nat}

/-- Where the byte has more than `k` ones the entry is valid, and its position holds the one bit with `k`
ones below it (R100). -/
theorem lut_of_lt_popcount (h : k < popcount v) : (lut v k).valid = true ∧
    v.getLsbD (lut v k).pos.toNat = true ∧ rankRef v.getLsbD true (lut v k).pos.toNat = k := by
  obtain ⟨hlt, hbit, hrank⟩ := lutPos_spec v k h
  have hpos : (BitVec.ofNat 3 (lutPos v k)).toNat = lutPos v k := Nat.mod_eq_of_lt hlt
  rw [lut, if_pos (Nat.succ_le_of_lt h), hpos]
  exact ⟨rfl, hbit, hrank⟩

/-- Where the byte has at most `k` ones the entry is invalid, with position 0 (R100). -/
theorem lut_of_popcount_le (h : popcount v ≤ k) : lut v k = ⟨false, 0⟩ :=
  if_neg (Nat.not_lt.2 h)

/-- The nibble of a valid entry is 8 and its position (R101). -/
theorem toNat_nibble_of_valid {entry : LutEntry} (h : entry.valid = true) :
    entry.nibble.toNat = 8 + entry.pos.toNat := by
  rw [LutEntry.nibble, BitVec.toNat_append, h, ← Nat.shiftLeft_add_eq_or_of_lt entry.pos.isLt]
  rfl

end Lut

/-- Settles O28: the position has `k1 - 1` ones below it and holds a one, so it counts to `k1`. -/
theorem tableIsCorrect : Obligations.TableIsCorrect := by
  intro v k1 hpos _
  refine ⟨fun hle => ?_, fun hlt => ?_⟩
  · obtain ⟨hvalid, hbit, hrank⟩ := lut_of_lt_popcount (v := v) (k := k1 - 1) (by omega)
    refine ⟨hvalid, ?_, hbit⟩
    rw [rankRef_succ, hrank, if_pos hbit, Nat.sub_add_cancel hpos]
  · rw [lut_of_popcount_le (Nat.le_sub_one_of_lt hlt)]

/-! ### LUTRD -/

/-- The low byte of a word has the word's ranks up to its width. -/
theorem rankRef_lowByte (x : Word) (a : Bool) {p : Nat} (hp : p ≤ 8) :
    rankRef (x.setWidth 8).getLsbD a p = rankRef x.getLsbD a p :=
  rankRef_congr a fun i hi => by simp [show i < 8 by omega]

/-- The answer to LUTRD, for operands in range: the entry's nibble, zero-extended (R102). -/
def lutrdValue (v k : Word) : Word := (lut (v.setWidth 8) k.toNat).nibble.setWidth 64

section Lutrd
variable {v k : Word}

theorem exec_lutrd_outOfRange {s : State} (hfatal : s.eng.fatal = false)
    (h : 255 < v.toNat ∨ 7 < k.toNat) :
    exec (.lutrd v k) s = .next (s.respond s.eng .errRange 0#64) := by
  rw [exec, execLutrd]
  exact perform_raise hfatal (if_pos h)

theorem exec_lutrd_inRange {s : State} (hfatal : s.eng.fatal = false)
    (hv : v.toNat ≤ 255) (hk : k.toNat ≤ 7) :
    exec (.lutrd v k) s = .next (s.respond s.eng .ok (lutrdValue v k)) := by
  rw [exec, execLutrd]
  exact perform_reply hfatal (if_neg (by omega))

theorem lutrdValue_of_lt_rank (h : k.toNat < rankRef v.getLsbD true 8) :
    ∃ j, j < 8 ∧ v.getLsbD j = true ∧ rankRef v.getLsbD true j = k.toNat ∧
      (lutrdValue v k).toNat = 8 + j := by
  rw [← rankRef_lowByte v true (Nat.le_refl 8), ← popcount_eq_rankRef] at h
  obtain ⟨hvalid, hbit, hrank⟩ := lut_of_lt_popcount h
  have hlt := (lut (v.setWidth 8) k.toNat).pos.isLt
  refine ⟨_, hlt, ?_, ?_, ?_⟩
  · simpa [hlt] using hbit
  · rwa [rankRef_lowByte v true (Nat.le_of_lt hlt)] at hrank
  · rw [lutrdValue, BitVec.toNat_setWidth_of_le (by decide), toNat_nibble_of_valid hvalid]

theorem lutrdValue_of_rank_le (h : rankRef v.getLsbD true 8 ≤ k.toNat) : lutrdValue v k = 0#64 := by
  rw [← rankRef_lowByte v true (Nat.le_refl 8), ← popcount_eq_rankRef] at h
  rw [lutrdValue, lut_of_popcount_le h]
  rfl

end Lutrd

/-- Settles O27: the checks of `v` and `k` decide, and the answer is the entry's nibble. -/
theorem lutrdReadsTheEntry : Obligations.LutrdReadsTheEntry := by
  refine ⟨fun v k => decode_encode (.lutrd v k), fun s v k hfatal => ?_⟩
  exact ⟨exec_lutrd_outOfRange hfatal, fun hv hk => ⟨lutrdValue v k, exec_lutrd_inRange hfatal hv hk,
    lutrdValue_of_lt_rank, lutrdValue_of_rank_le⟩⟩

end Sys2Proof.Machine
end

section
/-! The Flat Vector: what its eight commands answer and write, and that none of them sees or touches the
Indexed Vector (R110 to R118). -/

namespace Sys2Proof.Machine

/-! ### One word and one bit of the staging buffer -/

section Words
variable {e : Engine}

/-- A word written to the staging buffer is read back. -/
theorem fvWord_setFvWord_same (hwf : e.fv.wf = true) (i : Nat) (v : Word) :
    (e.setFvWord i v).fvWord i = v :=
  Store.read_write_same e.fv i v hwf

/-- Every other word of the staging buffer is as it was. -/
theorem fvWord_setFvWord_other {i j : Nat} (v : Word) (h : j ≠ i) :
    (e.setFvWord i v).fvWord j = e.fvWord j :=
  Store.read_write_other e.fv v h

/-- The bits of the written word are those of `v`, and every other bit is as it was (R24). -/
theorem fvBit_setFvWord (hwf : e.fv.wf = true) (i : Nat) (v : Word) (q : Nat) :
    (e.setFvWord i v).fvBit q = if q / 64 = i then v.getLsbD (q % 64) else e.fvBit q := by
  split
  · next h => rw [Engine.fvBit, h, fvWord_setFvWord_same hwf]
  · next h => rw [Engine.fvBit, fvWord_setFvWord_other v h, Engine.fvBit]

/-- In the word that holds `p`, a position is `p` exactly when its bit is that of `p` (R24). -/
theorem mod_eq_mod_iff_of_div_eq {p q : Nat} (h : q / 64 = p / 64) : q % 64 = p % 64 ↔ q = p := by
  omega

/-- A word whose bit of `p` is changed by `g`, its other bits kept, changes position `p` by `g` and no
other (R24). -/
theorem fvBit_setFvWord_bit (hwf : e.fv.wf = true) {p : Nat} {v : Word} (g : Bool → Bool → Bool)
    (hkeep : ∀ x, g false x = x)
    (hv : ∀ o, v.getLsbD o = g (decide (o = p % 64)) ((e.fvWord (p / 64)).getLsbD o)) (q : Nat) :
    (e.setFvWord (p / 64) v).fvBit q = g (decide (q = p)) (e.fvBit q) := by
  rw [fvBit_setFvWord hwf]
  split
  · next h =>
    rw [hv, ← h, ← Engine.fvBit]
    simp only [mod_eq_mod_iff_of_div_eq h]
  · next h =>
    have hne : q ≠ p := fun hqp => h (congrArg (· / 64) hqp)
    rw [decide_eq_false hne, hkeep]

/-- Setting the bit of `p` in its word sets position `p` and leaves every other (R113). -/
theorem fvBit_wordSet (hwf : e.fv.wf = true) (p q : Nat) :
    (e.setFvWord (p / 64) (wordSet (e.fvWord (p / 64)) (p % 64))).fvBit q =
      (decide (q = p) || e.fvBit q) :=
  fvBit_setFvWord_bit hwf or (fun _ => rfl)
    (fun o => getLsbD_wordSet _ _ o (Nat.mod_lt p (by decide))) q

/-- Clearing the bit of `p` in its word clears position `p` and leaves every other (R114). -/
theorem fvBit_wordClear (hwf : e.fv.wf = true) (p q : Nat) :
    (e.setFvWord (p / 64) (wordClear (e.fvWord (p / 64)) (p % 64))).fvBit q =
      (decide (q ≠ p) && e.fvBit q) := by
  rw [fvBit_setFvWord_bit hwf (fun change x => !change && x) (fun _ => rfl) (fun o => ?_) q]
  · rw [decide_not]
  · rw [getLsbD_wordClear _ _ o (Nat.mod_lt p (by decide)), decide_not]

end Words

/-! ### The commands that write the Flat Vector -/

/-- The rule of FVNEW, the one command whose rule sees the capacity (R111). -/
def fvnewRule (n : Word) (cfg : Config) (e : Engine) : Verdict :=
  if cfg.maxW < n.toNat then .raise .errCap
  else .reply { e with fvn := n, fv := e.fv.clearBelow n.toNat } 0#64

theorem exec_fvnew (n : Word) (s : State) : exec (.fvnew n) s = s.perform (fvnewRule n s.cfg) :=
  rfl

/-- Settles O29: the check of `n` decides, and clearing below `n` zeroes those words and keeps the others. -/
theorem fvnewMakesZeroWords : Obligations.FvnewMakesZeroWords := by
  refine ⟨fun n => decode_encode (.fvnew n), fun s n hfatal => ?_⟩
  rw [exec_fvnew]
  refine ⟨fun hn => perform_raise hfatal (if_pos hn), fun hn => ?_⟩
  have hread := Store.read_clearBelow s.eng.fv n.toNat
  exact ⟨_, perform_reply hfatal (if_neg (Nat.not_lt.2 hn)), rfl,
    fun i hi => (hread i).trans (if_pos hi), fun i hi => (hread i).trans (if_neg (Nat.not_lt.2 hi)),
    rfl, rfl, rfl, rfl, rfl⟩

/-- Settles O30: the check of `i` decides, and a written word is read back. -/
theorem fvputwWritesOneWord : Obligations.FvputwWritesOneWord := by
  refine ⟨fun i v => decode_encode (.fvputw i v), fun s i v hinv => ?_⟩
  obtain ⟨-, heng⟩ := hinv
  rw [exec, execFvputw]
  refine ⟨fun hi => perform_raise heng.not_fatal (if_pos hi), fun hi => ?_⟩
  exact ⟨_, perform_reply heng.not_fatal (if_neg (Nat.not_le.2 hi)),
    fvWord_setFvWord_same heng.fv_wf i.toNat v, fun j hj => fvWord_setFvWord_other v hj,
    rfl, rfl, rfl, rfl, rfl, rfl⟩

/-- Settles O31: the check of `p` decides, and the word of `p` is written with the bit of `p` set. -/
theorem fvsetSetsOneBit : Obligations.FvsetSetsOneBit := by
  refine ⟨fun p => decode_encode (.fvset p), fun s p hinv => ?_⟩
  obtain ⟨-, heng⟩ := hinv
  rw [exec, execFvset]
  refine ⟨fun hp => perform_raise heng.not_fatal (if_pos hp), fun hp => ?_⟩
  exact ⟨_, perform_reply heng.not_fatal (if_neg (Nat.not_le.2 hp)), fvBit_wordSet heng.fv_wf p.toNat,
    fun j hj => fvWord_setFvWord_other _ hj, rfl, rfl, rfl, rfl, rfl, rfl⟩

/-- Settles O32: the check of `p` decides, and the word of `p` is written with the bit of `p` clear. -/
theorem fvunsetClearsOneBit : Obligations.FvunsetClearsOneBit := by
  refine ⟨fun p => decode_encode (.fvunset p), fun s p hinv => ?_⟩
  obtain ⟨-, heng⟩ := hinv
  rw [exec, execFvunset]
  refine ⟨fun hp => perform_raise heng.not_fatal (if_pos hp), fun hp => ?_⟩
  exact ⟨_, perform_reply heng.not_fatal (if_neg (Nat.not_le.2 hp)), fvBit_wordClear heng.fv_wf p.toNat,
    fun j hj => fvWord_setFvWord_other _ hj, rfl, rfl, rfl, rfl, rfl, rfl⟩

/-! ### The commands that read the Flat Vector -/

/-- Settles O33: the check of `p` decides, and the answer is bit `p` as a Boolean result. -/
theorem fvaccReadsOneBit : Obligations.FvaccReadsOneBit := by
  refine ⟨fun p => decode_encode (.fvacc p), fun s p hfatal => ?_⟩
  rw [exec, execFvacc]
  exact ⟨fun hp => perform_raise hfatal (if_pos hp),
    fun hp => perform_reply hfatal (if_neg (Nat.not_le.2 hp))⟩

/-- Settles O34: the count over the positions is the sum of the words' population counts. -/
theorem fvcntCountsAllOnes : Obligations.FvcntCountsAllOnes := by
  refine ⟨decode_encode .fvcnt, fun s hfatal => ?_⟩
  rw [exec, execFvcnt, rankRef_fvWords]
  exact perform_reply hfatal rfl

/-- Settles O35: under the capacity the bit length is a 64-bit number. -/
theorem fvlenIsTheBitLength : Obligations.FvlenIsTheBitLength := by
  refine ⟨decode_encode .fvlen, fun s hinv => ?_⟩
  obtain ⟨hcfg, heng⟩ := hinv
  rw [exec, execFvlen]
  exact ⟨result s.eng.fvBits, perform_reply heng.not_fatal rfl, result_fvBits hcfg heng⟩

/-- Settles O36: the two checks decide, and the answer is the model's window. -/
theorem fvextExtractsTheWindow : Obligations.FvextExtractsTheWindow := by
  refine ⟨fun p len => decode_encode (.fvext p len), fun s p len hfatal => ?_⟩
  rw [exec, execFvext]
  refine ⟨fun hbad => perform_raise hfatal ?_, fun hlen hend => ?_⟩
  · by_cases hlong : 64 < len.toNat
    · exact if_pos hlong
    · exact (if_neg hlong).trans (if_pos (hbad.resolve_left hlong))
  · exact ⟨s.eng.extractRun p.toNat len.toNat,
      perform_reply hfatal ((if_neg (Nat.not_lt.2 hlen)).trans (if_neg (Nat.not_lt.2 hend))),
      fun k hk => getLsbD_extractRun s.eng p.toNat len.toNat k hlen hk⟩

/-! ### Independence from the Indexed Vector (R110) -/

/-- The engine `e` with the Indexed Vector and the lifecycle state of `f`. -/
def Engine.withIndexOf (e f : Engine) : Engine :=
  { e with nblk := f.nblk, len := f.len, idx := f.idx, blk := f.blk }

/-- The same verdict, on an engine with the Indexed Vector and the lifecycle state of `f`. -/
def Verdict.withIndexOf (f : Engine) : Verdict → Verdict
  | .raise st => .raise st
  | .raiseFatal => .raiseFatal
  | .reply e val => .reply (e.withIndexOf f) val

/-- A rule that neither reads nor writes the Indexed Vector or the lifecycle state: exchanging them
before the rule is exchanging them after it. -/
def IndexBlind (rule : Engine → Verdict) : Prop :=
  ∀ e f : Engine, rule (e.withIndexOf f) = (rule e).withIndexOf f

/-- Engines that agree on the Flat Vector and `FATAL` differ in the Indexed Vector alone. -/
theorem eq_withIndexOf {e f : Engine} (hfvn : f.fvn = e.fvn) (hfv : f.fv = e.fv)
    (hfatal : f.fatal = e.fatal) : f = e.withIndexOf f := by
  rw [Engine.withIndexOf, ← hfvn, ← hfv, ← hfatal]

/-- A rule is blind when the condition it checks first is, and what comes after the check. -/
theorem IndexBlind.check {c : Engine → Prop} [DecidablePred c] {st : Status} {rule : Engine → Verdict}
    (hc : ∀ e f, c (e.withIndexOf f) ↔ c e) (hrule : IndexBlind rule) :
    IndexBlind fun e => if c e then .raise st else rule e := by
  intro e f
  dsimp only
  by_cases h : c e
  · rw [if_pos h, if_pos ((hc e f).2 h)]
    rfl
  · rw [if_neg h, if_neg (mt (hc e f).1 h)]
    exact hrule e f

/-- The eight commands of the Flat Vector. -/
def IsFlatVector (i : Instr) : Prop :=
  (∃ n, i = .fvnew n) ∨ (∃ j v, i = .fvputw j v) ∨ (∃ p, i = .fvset p) ∨ (∃ p, i = .fvunset p) ∨
    (∃ p, i = .fvacc p) ∨ i = .fvcnt ∨ i = .fvlen ∨ (∃ p len, i = .fvext p len)

/-- A Flat Vector command is run by a rule that is blind to the Indexed Vector: its checks and its
writes name the Flat Vector alone. -/
theorem exec_indexBlind {i : Instr} (hi : IsFlatVector i) : ∃ rule : Config → Engine → Verdict,
    (∀ cfg, IndexBlind (rule cfg)) ∧ ∀ s, exec i s = s.perform (rule s.cfg) := by
  rcases hi with ⟨n, rfl⟩ | ⟨j, v, rfl⟩ | ⟨p, rfl⟩ | ⟨p, rfl⟩ | ⟨p, rfl⟩ | rfl | rfl | ⟨p, len, rfl⟩
  · exact ⟨fvnewRule n, fun _ => .check (fun _ _ => .rfl) fun _ _ => rfl, exec_fvnew n⟩
  all_goals
    simp only [exec, execFvputw, execFvset, execFvunset, execFvacc, execFvcnt, execFvlen, execFvext]
    refine ⟨fun _ => _, fun _ => ?_, fun _ => rfl⟩
  · exact .check (fun _ _ => .rfl) fun _ _ => rfl
  · exact .check (fun _ _ => .rfl) fun _ _ => rfl
  · exact .check (fun _ _ => .rfl) fun _ _ => rfl
  · exact .check (fun _ _ => .rfl) fun _ _ => rfl
  · exact fun _ _ => rfl
  · exact fun _ _ => rfl
  · exact .check (fun _ _ => .rfl) (.check (fun _ _ => .rfl) fun _ _ => rfl)

/-- A blind rule run on engines that differ in the Indexed Vector alone gives the same response, and
leaves engines that differ in it alone. -/
theorem perform_withIndexOf {s s' t t' : State} {rule : Engine → Verdict} {f : Engine}
    (hblind : IndexBlind rule) (heng : s'.eng = s.eng.withIndexOf f)
    (h : s.perform rule = .next t) (h' : s'.perform rule = .next t') :
    t'.rsp = t.rsp ∧ t'.eng = t.eng.withIndexOf f := by
  have hfatal' : s'.eng.fatal = s.eng.fatal := by rw [heng, Engine.withIndexOf]
  cases hfatal : s.eng.fatal with
  | true =>
    rw [perform_fatal rule hfatal] at h
    rw [perform_fatal rule (hfatal'.trans hfatal)] at h'
    obtain rfl := Host.Outcome.next.inj h
    obtain rfl := Host.Outcome.next.inj h'
    exact ⟨rfl, heng⟩
  | false =>
    rw [perform_ready_next hfatal h, perform_ready_next (hfatal'.trans hfatal) h', heng,
      hblind s.eng f]
    cases rule s.eng with
    | raise st => exact ⟨rfl, heng⟩
    | raiseFatal => exact ⟨rfl, congrArg (fun e => { e with fatal := true }) heng⟩
    | reply e val => exact ⟨rfl, rfl⟩

/-- Settles O37: the command's rule is blind to the Indexed Vector.  So its runs from two states that
differ in it alone agree, and a run compared with itself keeps its own. -/
theorem flatVectorIsIndependentOfTheIndex : Obligations.FlatVectorIsIndependentOfTheIndex := by
  intro i s s' t t' hi h h'
  obtain ⟨rule, hblind, hrule⟩ := exec_indexBlind hi
  rw [hrule] at h h'
  constructor
  · obtain ⟨-, hown⟩ := perform_withIndexOf (f := s.eng) (hblind s.cfg) rfl h h
    rw [hown]
    exact ⟨rfl, rfl, rfl, rfl⟩
  · intro hcfg hfvn hfv hfatal
    rw [hcfg] at h'
    obtain ⟨hrsp, heng⟩ :=
      perform_withIndexOf (hblind s.cfg) (eq_withIndexOf hfvn hfv hfatal) h h'
    rw [heng]
    exact ⟨hrsp, rfl, rfl⟩

end Sys2Proof.Machine
end

section
/-! Building the Indexed Vector: what BLD, BLDP and PRECOMP leave, and that BLDP is BLD followed by PRECOMP
(R131 to R134). -/

namespace Sys2Proof.Machine

/-! ### How the three commands answer -/

section Answers
variable {s : State} (hfatal : s.eng.fatal = false)
include hfatal

theorem exec_bld : exec .bld s = .next (s.respond
    (s.eng.rebuild (bldPass s.eng.inputWord s.eng.blk s.eng.blocksNeeded) .unindexed) .ok 0#64) := by
  rw [exec, execBld]
  exact perform_reply hfatal rfl

theorem exec_bldp : exec .bldp s = .next (s.respond
    (s.eng.rebuild (bldpPass s.eng.inputWord s.eng.blk s.eng.blocksNeeded).1 .indexed) .ok 0#64) := by
  rw [exec, execBldp]
  exact perform_reply hfatal rfl

theorem exec_precomp : exec .precomp s = .next (s.respond s.eng.precomputed .ok 0#64) := by
  rw [exec, execPrecomp]
  exact perform_reply hfatal rfl

end Answers

/-- Every command keeps the invariants, as its effect on the engine does. -/
theorem State.Inv.exec {i : Instr} {s t : State} (hinv : s.Inv) (h : exec i s = .next t) : t.Inv := by
  obtain ⟨hcfg, heng⟩ := hinv
  obtain ⟨rule, hrule⟩ := exec_eq_perform i s
  obtain ⟨hsame, -⟩ := perform_frame (hrule ▸ h)
  exact ⟨hsame ▸ hcfg, hsame ▸ (exec_effect h).inv hcfg heng⟩

/-! ### What a build leaves -/

section Rebuild
variable {e : Engine} {blk : Store} {idx : Lifecycle}

theorem nblk_rebuild {cfg : Config} (hcfg : cfg.Valid) (hinv : e.Inv cfg) :
    (e.rebuild blk idx).nblk.toNat = e.blocksNeeded :=
  result_blocksNeeded hcfg hinv

theorem len_rebuild {cfg : Config} (hcfg : cfg.Valid) (hinv : e.Inv cfg) :
    (e.rebuild blk idx).len.toNat = 64 * e.fvn.toNat :=
  result_fvBits hcfg hinv

/-- A build that stores the input's payload stores every bit of the Flat Vector at its position. -/
theorem bit_rebuild
    (hpay : ∀ b w, b < e.blocksNeeded → w < 7 → blk.read (paySlot b w) = e.inputWord (7 * b + w))
    {p : Nat} (hp : p < 64 * e.fvn.toNat) : (e.rebuild blk idx).bit p = e.fvBit p := by
  have hword : p / 64 < e.fvn.toNat := by omega
  have hblock : p / 64 / 7 < e.blocksNeeded := by rw [Engine.blocksNeeded]; omega
  have hread : (e.rebuild blk idx).pay (p / 64 / 7) (p / 64 % 7) = e.fvWord (p / 64) := by
    refine (hpay _ _ hblock (Nat.mod_lt _ (by decide))).trans ?_
    rw [Nat.div_add_mod, Engine.inputWord, if_pos hword]
  rw [Engine.bit, locate, hread, Engine.fvBit]

end Rebuild

/-- Settles O38: the pass copies the input word by word and writes every counter zero. -/
theorem bldCopiesAndClearsCounters : Obligations.BldCopiesAndClearsCounters := by
  refine ⟨decode_encode .bld, fun s hinv => ?_⟩
  obtain ⟨hcfg, heng⟩ := hinv
  refine ⟨_, exec_bld heng.not_fatal, ?_⟩
  rw [nblk_rebuild hcfg heng]
  exact ⟨rfl, len_rebuild hcfg heng, rfl,
    fun _ _ hb hw => bldPass_pay _ heng.blk_wf hb hw,
    fun _ hb => bldPass_presum _ heng.blk_wf hb,
    fun _ ha => bldPass_rest _ heng.blk_wf ha, rfl, rfl, rfl⟩

/-- The counters of BLDP are the ones of the Flat Vector before each block: by the PreSum invariant they
are the ones before it in the Indexed Vector, and all of those bits are copies (R132). -/
theorem presum_bldp {cfg : Config} {e : Engine} (hcfg : cfg.Valid) (hinv : e.Inv cfg) {b : Nat}
    (hb : b < e.blocksNeeded) :
    ((e.rebuild (bldpPass e.inputWord e.blk e.blocksNeeded).1 .indexed).presum b).toNat =
      rankRef e.fvBit true (448 * b) := by
  rw [presum_eq _ (hinv.bldp hcfg) rfl ((nblk_rebuild hcfg hinv).symm ▸ hb)]
  rw [Engine.blocksNeeded] at hb
  exact rankRef_congr true fun _ hi =>
    bit_rebuild (fun _ _ hb hw => bldpPass_pay _ hinv.blk_wf hb hw) (by omega)

/-- Settles O39: the pass copies the input word by word and counts the ones it has copied. -/
theorem bldpCopiesAndCounts : Obligations.BldpCopiesAndCounts := by
  refine ⟨decode_encode .bldp, fun s hinv => ?_⟩
  obtain ⟨hcfg, heng⟩ := hinv
  refine ⟨_, exec_bldp heng.not_fatal, ?_⟩
  rw [nblk_rebuild hcfg heng]
  exact ⟨rfl, len_rebuild hcfg heng, rfl,
    fun _ _ hb hw => bldpPass_pay _ heng.blk_wf hb hw,
    fun _ hb => presum_bldp hcfg heng hb,
    fun _ ha => bldpPass_rest _ heng.blk_wf ha, rfl, rfl, rfl⟩

/-! ### What PRECOMP leaves -/

/-- The counters of PRECOMP are the ones of the payload that was there, since the pass keeps the payload
(R133). -/
theorem presum_precomputed {cfg : Config} {e : Engine} (hcfg : cfg.Valid) (hinv : e.Inv cfg) {b : Nat}
    (hb : b < e.nblk.toNat) : (e.precomputed.presum b).toNat = sumBelow (storedOnes e.blk) b := by
  rw [(hinv.precomputed hcfg).presum_indexed rfl b hb, Engine.precomputed,
    storedOnes_precompPass hinv.blk_wf]

/-- The ones of the payload before a block, as a sum over its blocks and words. -/
theorem sumBelow_storedOnes (e : Engine) (b : Nat) : sumBelow (storedOnes e.blk) b =
    ∑ j ∈ Finset.range b, ∑ w ∈ Finset.range 7, popcount (e.pay j w) := by
  simp only [sumBelow_eq_sum, storedOnes, Engine.pay]

/-- Settles O40: the pass writes the counters alone, each the ones of the payload before its block. -/
theorem precompFillsTheCounters : Obligations.PrecompFillsTheCounters := by
  refine ⟨decode_encode .precomp, fun s hinv => ?_⟩
  obtain ⟨hcfg, heng⟩ := hinv
  exact ⟨_, exec_precomp heng.not_fatal, rfl,
    fun b hb => (presum_precomputed hcfg heng hb).trans (sumBelow_storedOnes s.eng b),
    fun _ _ hw => precompPass_pay heng.blk_wf hw,
    fun _ ha => precompPass_rest heng.blk_wf ha, rfl, rfl, rfl, rfl, rfl⟩

/-! ### BLDP is BLD followed by PRECOMP (R134) -/

section Passes
variable (input : Nat → Word) {m : Store} (hm : m.wf = true) {n b : Nat}
include hm

/-- The blocks BLD stores hold the ones of the input. -/
theorem storedOnes_bldPass (hb : b < n) : storedOnes (bldPass input m n) b = inputOnes input b :=
  sumBelow_congr fun _ hw => by rw [bldPass_pay input hm hb hw]

/-- PRECOMP's pass over the blocks that BLD's pass left gives the store of BLDP's one pass: the three
differ in the counters alone, and the total before a block is the same. -/
theorem precompPass_bldPass : (precompPass (bldPass input m n) n).1 = (bldpPass input m n).1 := by
  have hbld := bldPass_wf input m n hm
  refine Store.ext_of_read (precompPass_wf _ n hbld) (bldpPass_wf input m n hm) fun x => ?_
  rw [(precompPass_spec _ n hbld).2, read_bldPass input m n x hm, read_bldpPass input m n x hm]
  by_cases hin : x < 8 * n
  · by_cases hcounter : x % 8 = 0
    · have htotal : sumBelow (storedOnes (bldPass input m n)) (x / 8) =
          sumBelow (inputOnes input) (x / 8) :=
        sumBelow_congr fun _ hj => storedOnes_bldPass input hm (by omega)
      simp only [hin, hcounter, and_self, if_true, htotal]
    · simp only [hin, hcounter, and_false, if_false]
  · simp only [hin, false_and, if_false]

end Passes

theorem precomputed_rebuild_bld {cfg : Config} {e : Engine} (hcfg : cfg.Valid) (hinv : e.Inv cfg) :
    (e.rebuild (bldPass e.inputWord e.blk e.blocksNeeded) .unindexed).precomputed =
      e.rebuild (bldpPass e.inputWord e.blk e.blocksNeeded).1 .indexed := by
  rw [Engine.precomputed, nblk_rebuild hcfg hinv]
  simp only [Engine.rebuild, precompPass_bldPass e.inputWord hinv.blk_wf]

/-- Settles O41: PRECOMP completes BLD's engine to BLDP's, and commands keep the invariants. -/
theorem bldpIsBldThenPrecomp : Obligations.BldpIsBldThenPrecomp := by
  intro s t u hinv hbld hprecomp
  have hinv_t : t.Inv := hinv.exec hbld
  have hinv_u : u.Inv := hinv_t.exec hprecomp
  rw [exec_bld hinv.eng_inv.not_fatal] at hbld
  rw [exec_precomp hinv_t.eng_inv.not_fatal] at hprecomp
  obtain rfl := Host.Outcome.next.inj hbld
  obtain rfl := Host.Outcome.next.inj hprecomp
  exact ⟨hinv_u, rfl, _, exec_bldp hinv.eng_inv.not_fatal,
    (precomputed_rebuild_bld hinv.cfg_valid hinv.eng_inv).symm⟩

end Sys2Proof.Machine
end

section
/-! Querying the Indexed Vector: the position commands, RANK, the search loop of SEL and its two checks, and
the sizes (R141 to R149). -/

namespace Sys2Proof.Machine

/-! ### The two lifecycle states exclude each other (R28) -/

theorem Engine.not_indexed {e : Engine} (h : e.idx = .unindexed) : ¬e.idx = .indexed := by
  rw [h]; decide

theorem Engine.not_unindexed {e : Engine} (h : e.idx = .indexed) : ¬e.idx = .unindexed := by
  rw [h]; decide

/-! ### LOCATE (R145) -/

/-- A number shifted to its field is a multiple of the field's place, if the product fits. -/
theorem toNat_result_shiftLeft {n k : Nat} (h : 2 ^ k * n < 2 ^ 64) :
    (result n <<< k).toNat = 2 ^ k * n := by
  have hn : n < 2 ^ 64 := (Nat.le_mul_of_pos_left n (Nat.two_pow_pos k)).trans_lt h
  rw [BitVec.toNat_shiftLeft, result_toNat hn, Nat.shiftLeft_eq, Nat.mul_comm, Nat.mod_eq_of_lt h]

/-- The three fields of LOCATE's answer do not overlap, so putting them together adds them up (R145). -/
theorem toNat_locateFields {b w o : Nat} (hb : 512 * b < 2 ^ 64) (hw : w < 7) (ho : o < 64) :
    (result b <<< 9 ||| result w <<< 6 ||| result o).toNat = 512 * b + 64 * w + o := by
  have hword : 2 ^ 6 * w ||| o = 2 ^ 6 * w + o := (Nat.two_pow_add_eq_or_of_lt ho w).symm
  have hblock : 2 ^ 9 * b ||| (2 ^ 6 * w + o) = 2 ^ 9 * b + (2 ^ 6 * w + o) :=
    (Nat.two_pow_add_eq_or_of_lt (by omega) b).symm
  calc (result b <<< 9 ||| result w <<< 6 ||| result o).toNat
    _ = 2 ^ 9 * b ||| (2 ^ 6 * w ||| o) := by
        rw [BitVec.or_assoc, BitVec.toNat_or, BitVec.toNat_or, toNat_result_shiftLeft hb,
          toNat_result_shiftLeft (by omega), result_toNat (by omega)]
    _ = 512 * b + 64 * w + o := by rw [hword, hblock]; omega

/-- The block of a legal position fits its field of LOCATE's answer (R12, R145). -/
theorem locate_block_fits {cfg : Config} {e : Engine} (hcfg : cfg.Valid) (hinv : e.Inv cfg) {p : Nat}
    (hp : p < e.len.toNat) : 512 * (locate p).block < 2 ^ 64 := by
  have hblock := locate_block_lt e hinv hp
  have hcap := nblk_le_capacity hcfg hinv
  omega

/-- Settles O43: the check of `p` decides, and the answer is the three fields of the model's Locate. -/
theorem locateDecomposesThePosition : Obligations.LocateDecomposesThePosition := by
  refine ⟨fun p => decode_encode (.locate p), fun s p hinv => ?_⟩
  obtain ⟨hcfg, heng⟩ := hinv
  rw [exec, execLocate]
  refine ⟨fun hp => perform_raise heng.not_fatal (if_pos hp), fun hp => ?_⟩
  have hword := locate_word_lt p.toNat
  have hbit := locate_bit_lt p.toNat
  exact ⟨_, _, _, _, perform_reply heng.not_fatal (if_neg (Nat.not_le.2 hp)),
    (locate_inverse p.toNat).symm, hword, hbit,
    toNat_locateFields (locate_block_fits hcfg heng hp) hword hbit⟩

/-! ### ACC and SET (R141, R142) -/

/-- Settles O44: the check of `p` decides, and the answer is bit `p` as a Boolean result. -/
theorem accReadsOneBit : Obligations.AccReadsOneBit := by
  refine ⟨fun p => decode_encode (.acc p), fun s p hfatal => ?_⟩
  rw [exec, execAcc]
  exact ⟨fun hp => perform_raise hfatal (if_pos hp),
    fun hp => perform_reply hfatal (if_neg (Nat.not_le.2 hp))⟩

section Payload
variable {e : Engine}

/-- In the payload word that holds `p`, a position is `p` exactly when its bit is that of `p` (R140). -/
theorem locate_bit_eq_iff_of_slot_eq {p q : Nat} (h : paySlot (locate q).block (locate q).word =
    paySlot (locate p).block (locate p).word) : (locate q).bit = (locate p).bit ↔ q = p := by
  simp only [paySlot, locate] at h ⊢
  omega

/-- Setting the bit of `p` in its payload word sets position `p` and leaves every other (R142). -/
theorem bit_wordSet (hwf : e.blk.wf = true) (p q : Nat) :
    (e.setPay (locate p).block (locate p).word
      (wordSet (e.pay (locate p).block (locate p).word) (locate p).bit)).bit q =
      (decide (q = p) || e.bit q) := by
  rw [Engine.bit, Engine.pay, setPay_blk, Store.read_write _ _ _ _ hwf]
  split
  · next hslot =>
    rw [getLsbD_wordSet _ _ _ (locate_bit_lt p), Engine.pay, ← hslot, ← Engine.pay, ← Engine.bit]
    simp only [locate_bit_eq_iff_of_slot_eq hslot]
  · next hslot =>
    have hne : q ≠ p := fun hqp => hslot (by rw [hqp])
    rw [decide_eq_false hne, Bool.false_or, Engine.bit, Engine.pay]

/-- A written payload word is no counter (R42). -/
theorem presum_setPay_locate (p : Nat) (v : Word) (b : Nat) :
    (e.setPay (locate p).block (locate p).word v).presum b = e.presum b := by
  have hword := locate_word_lt p
  exact Store.read_write_other _ v (by simp only [presumSlot, paySlot]; omega)

end Payload

/-- Settles O45: the two checks decide, and the payload word of `p` is written with the bit of `p` set. -/
theorem setSetsOneBitBeforeIndexing : Obligations.SetSetsOneBitBeforeIndexing := by
  refine ⟨fun p => decode_encode (.set p), fun s p hinv => ?_⟩
  obtain ⟨-, heng⟩ := hinv
  rw [exec, execSet]
  refine ⟨fun hidx => perform_raise heng.not_fatal (if_pos hidx), fun hidx hp => ?_,
    fun hidx hp => ?_⟩
  · exact perform_raise heng.not_fatal ((if_neg (Engine.not_indexed hidx)).trans (if_pos hp))
  · exact ⟨_, perform_reply heng.not_fatal
        ((if_neg (Engine.not_indexed hidx)).trans (if_neg (Nat.not_le.2 hp))),
      bit_wordSet heng.blk_wf p.toNat, fun a ha => Store.read_write_other _ _ ha,
      presum_setPay_locate p.toNat _, rfl, rfl, rfl, rfl, rfl, rfl⟩

/-! ### RANK (R143, R172) -/

/-- RANK's answer for either bit, from the ones before the position: below `LEN` the counter of the
position's block is right, and the zeros are the rest (R143, R172). -/
theorem rankAnswer_eq {cfg : Config} {e : Engine} (hinv : e.Inv cfg) (hidx : e.idx = .indexed)
    (alpha : Bool) {p : Nat} (hp : p < e.len.toNat) :
    (if alpha then e.onesBefore (locate p) else p - e.onesBefore (locate p)) =
      rankRef e.bit alpha p := by
  rw [onesBefore_eq e p (presum_eq e hinv hidx (locate_block_lt e hinv hp))]
  cases alpha with
  | true => rfl
  | false => exact (rankRef_false e.bit p).symm

/-- Settles O46: the two checks decide, and the one block that is read gives the reference count. -/
theorem rankIsCorrect : Obligations.RankIsCorrect := by
  refine ⟨fun p => ⟨decode_encode (.rank false p), decode_encode (.rank true p)⟩,
    fun s alpha p hinv => ?_⟩
  obtain ⟨-, heng⟩ := hinv
  rw [exec, execRank]
  refine ⟨fun hidx => perform_raise heng.not_fatal (if_pos hidx), fun hidx hp => ?_,
    fun hidx hp => ?_⟩
  · exact perform_raise heng.not_fatal ((if_neg (Engine.not_unindexed hidx)).trans (if_pos hp))
  · rw [← rankAnswer_eq heng hidx alpha hp]
    exact perform_reply heng.not_fatal
      ((if_neg (Engine.not_unindexed hidx)).trans (if_neg (Nat.not_le.2 hp)))

/-! ### The search loop of SEL, and its two checks (R144, R149) -/

/-- `k` splits the indices below `blocks`: the counts before it are under `n`, those from it on reach `n`
(R149). -/
def IsLowerBound (count : Nat → Nat) (n blocks k : Nat) : Prop :=
  k ≤ blocks ∧ (∀ i, i < k → count i < n) ∧ ∀ i, k ≤ i → i < blocks → n ≤ count i

/-- The loop keeps the counts before `lo` under `n` and those from `hi` on at least `n`.  Each iteration
halves the interval, so `fuel` iterations empty one shorter than `2 ^ fuel` (R149, R220). -/
theorem isLowerBound_lowerBound {count : Nat → Nat} {n blocks fuel lo hi : Nat}
    (hmono : ∀ i j, i ≤ j → j < blocks → count i ≤ count j) (hle : lo ≤ hi) (hhi : hi ≤ blocks)
    (hshort : hi - lo < 2 ^ fuel) (hbefore : ∀ i, i < lo → count i < n)
    (hfrom : ∀ i, hi ≤ i → i < blocks → n ≤ count i) :
    IsLowerBound count n blocks (lowerBound count n fuel lo hi) := by
  induction fuel generalizing lo hi with
  | zero =>
    obtain rfl : lo = hi := by omega
    exact ⟨hhi, hbefore, hfrom⟩
  | succ fuel ih =>
    rw [Nat.pow_succ] at hshort
    rw [lowerBound]
    by_cases hlt : lo < hi
    · have hmid : (lo + hi) / 2 < hi := by omega
      rw [if_pos hlt]
      dsimp only
      by_cases hcount : count ((lo + hi) / 2) < n
      · rw [if_pos hcount]
        refine ih (by omega) hhi (by omega) (fun i hleft => ?_) hfrom
        exact (hmono i _ (Nat.le_of_lt_succ hleft) (by omega)).trans_lt hcount
      · rw [if_neg hcount]
        refine ih (by omega) (by omega) (by omega) hbefore (fun i hright hblocks => ?_)
        exact (Nat.not_lt.1 hcount).trans (hmono _ i hright hblocks)
    · obtain rfl : lo = hi := by omega
      rw [if_neg hlt]
      exact ⟨hhi, hbefore, hfrom⟩

/-- Settles O54: at the start nothing is before the interval and nothing past it, and 64 iterations empty
it. -/
theorem binarySearchFindsTheLowerBound : Obligations.BinarySearchFindsTheLowerBound := by
  intro count n blocks hblocks hmono
  exact isLowerBound_lowerBound hmono (Nat.zero_le blocks) (Nat.le_refl blocks) hblocks
    (fun i hleft => absurd hleft (Nat.not_lt_zero i))
    (fun i hright hlt => absurd hlt (Nat.not_lt.2 hright))

/-- Settles O48: the lifecycle is the first check of SEL's rule and `n = 0` the second. -/
theorem selectChecksStateThenZero : Obligations.SelectChecksStateThenZero := by
  intro s alpha n hfatal
  rw [exec, execSel]
  exact ⟨fun hidx => perform_raise hfatal (if_pos hidx),
    fun hidx hn => perform_raise hfatal ((if_neg (Engine.not_unindexed hidx)).trans (if_pos hn))⟩

/-! ### OVH and SIZE (R147, R148) -/

/-- Settles O55: under the capacity both products are 64-bit numbers. -/
theorem overheadAndSizeAreTheBits : Obligations.OverheadAndSizeAreTheBits := by
  refine ⟨decode_encode .ovh, decode_encode .size, fun s hinv => ?_⟩
  obtain ⟨hcfg, heng⟩ := hinv
  have hcap := nblk_le_capacity hcfg heng
  rw [exec, exec, execOvh, execSize]
  exact ⟨⟨_, perform_reply heng.not_fatal rfl, result_toNat (by omega)⟩,
    ⟨_, perform_reply heng.not_fatal rfl, result_toNat (by omega)⟩⟩

end Sys2Proof.Machine
end

section
/-! What SEL answers: the boundary block, the search inside a block, and the reference position (R144, R146,
R149). -/

namespace Sys2Proof.Machine

section Sel
variable {cfg : Config} {e : Engine} (hinv : e.Inv cfg) (hidx : e.idx = .indexed)

/-! ### Step 1: the boundary block -/

include hinv in
/-- The blocks hold every legal position (R35). -/
theorem len_le_blocks : e.len.toNat ≤ 448 * e.nblk.toNat := by
  obtain ⟨n, -, hlen, hnblk⟩ := hinv.size
  omega

include hinv hidx

theorem countBefore_of_indexed (alpha : Bool) {i : Nat} (hi : i < e.nblk.toNat) :
    e.countBefore alpha i = rankRef e.bit alpha (448 * i) :=
  countBefore_eq e alpha i (presum_eq e hinv hidx hi)

/-- In the indexed state step 1 of SEL splits the blocks by the reference counts before them (R149). -/
theorem boundaryBlock_isLowerBound (alpha : Bool) (n : Nat) :
    IsLowerBound (fun i => rankRef e.bit alpha (448 * i)) n e.nblk.toNat
      (e.boundaryBlock alpha n) := by
  have hmono : ∀ i j, i ≤ j → j < e.nblk.toNat → e.countBefore alpha i ≤ e.countBefore alpha j := by
    intro i j hij hj
    rw [countBefore_of_indexed hinv hidx alpha (hij.trans_lt hj),
      countBefore_of_indexed hinv hidx alpha hj]
    exact rankRef_mono _ _ (Nat.mul_le_mul_left 448 hij)
  obtain ⟨hle, hbefore, hfrom⟩ :=
    binarySearchFindsTheLowerBound (e.countBefore alpha) n e.nblk.toNat e.nblk.isLt hmono
  exact ⟨hle,
    fun i hi => (countBefore_of_indexed hinv hidx alpha (hi.trans_le hle)).symm.trans_lt (hbefore i hi),
    fun i hi hblocks =>
      (hfrom i hi hblocks).trans_eq (countBefore_of_indexed hinv hidx alpha hblocks)⟩

end Sel

/-! ### Steps 2 and 3: inside a block -/

section InBlock
variable {e : Engine} {alpha : Bool} {n b : Nat}
  (hcount : e.countBefore alpha b = rankRef e.bit alpha (448 * b))
  (hbefore : rankRef e.bit alpha (448 * b) < n)

/-- The count at the end of a block: what is before it and what its words hold. -/
theorem rankRef_block_succ (e : Engine) (alpha : Bool) (b : Nat) :
    rankRef e.bit alpha (448 * (b + 1)) =
      rankRef e.bit alpha (448 * b) + sumBelow (fun j => wordCount alpha (e.pay b j)) 7 := by
  rw [Nat.mul_succ, rankRef_add, ← rankRef_words e alpha (Nat.le_refl 7)]

include hcount hbefore

/-- Where the `n`-th occurrence is not in the block, the scan of its words finds too few. -/
theorem selectInBlock_of_rank_lt (h : rankRef e.bit alpha (448 * (b + 1)) < n) :
    e.selectInBlock alpha n b = .raise .errNotFound := by
  rw [rankRef_block_succ] at h
  have hscan := (scanWords_spec alpha (e.pay b) (n - e.countBefore alpha b) 7 0 0 (by omega)).2
    (by simp only [Nat.zero_add]; omega)
  simp only [Engine.selectInBlock, hscan]

/-- Where the `n`-th occurrence is in the block, the scan and the word select find it, and it is the
answer if it lies below `LEN` (R144, R146). -/
theorem selectInBlock_of_le_rank (h : n ≤ rankRef e.bit alpha (448 * (b + 1))) :
    ∃ pos, e.bit pos = alpha ∧ rankRef e.bit alpha pos + 1 = n ∧
      e.selectInBlock alpha n b =
        if pos < e.len.toNat then .reply e (result pos) else .raise .errNotFound := by
  rw [rankRef_block_succ] at h
  obtain ⟨w, hw, hscan, hlo, hhi⟩ :=
    (scanWords_spec alpha (e.pay b) (n - e.countBefore alpha b) 7 0 0 (by omega)).1
      (by simp only [Nat.zero_add]; omega)
  simp only [Nat.zero_add, sumBelow_succ, wordCount_eq_rankRef alpha (e.pay b w)] at hscan hlo hhi
  obtain ⟨off, hsel, hoff, hbit, hrank⟩ :=
    (wordSelect_spec alpha (e.pay b w) _ (Nat.sub_pos_of_lt hlo)).1 (by omega)
  refine ⟨448 * b + 64 * w + off, ?_, ?_, ?_⟩
  · rw [bit_of_parts e hw hoff, hbit]
  · rw [rankRef_of_parts e alpha hw (Nat.le_of_lt hoff)]
    omega
  · simp only [Engine.selectInBlock, hscan, hsel]

end InBlock

/-! ### SEL -/

/-- What SEL's rule answers once its two checks have passed (R144). -/
def Engine.selectAnswer (e : Engine) (alpha : Bool) (n : Nat) : Verdict :=
  match e.boundaryBlock alpha n with
  | 0 => .raise .errNotFound
  | b + 1 => e.selectInBlock alpha n b

/-- In the indexed state, for `n ≥ 1`, SEL answers what its search finds (R144). -/
theorem exec_sel_of_pos {s : State} (hinv : s.Inv) (hidx : s.eng.idx = .indexed) (alpha : Bool)
    {n : Word} (hn : 1 ≤ n.toNat) :
    exec (.sel alpha n) s = .next (s.conclude (s.eng.selectAnswer alpha n.toNat)) := by
  have hne : n ≠ 0#64 := by
    rintro rfl
    exact absurd hn (by decide)
  rw [exec, execSel, perform_ready _ hinv.eng_inv.not_fatal,
    if_neg (Engine.not_unindexed hidx), if_neg hne]
  rfl

section Answer
variable {cfg : Config} {e : Engine} (hinv : e.Inv cfg) (hidx : e.idx = .indexed) {alpha : Bool} {n : Nat}
include hinv hidx

/-- Up to the total below `LEN`, some block comes before the boundary block, the occurrence is in that
block, and it lies below `LEN` (R144, R173). -/
theorem selectAnswer_of_le_total (hn : 1 ≤ n) (hle : n ≤ rankRef e.bit alpha e.len.toNat) :
    ∃ q, IsSelectRef e.bit e.len.toNat alpha n q ∧ e.selectAnswer alpha n = .reply e (result q) := by
  obtain ⟨hblocks, hbefore, hfrom⟩ := boundaryBlock_isLowerBound hinv hidx alpha n
  have htotal : n ≤ rankRef e.bit alpha (448 * e.nblk.toNat) :=
    hle.trans (rankRef_mono _ _ (len_le_blocks hinv))
  have hreach : n ≤ rankRef e.bit alpha (448 * e.boundaryBlock alpha n) := by
    rcases hblocks.lt_or_eq with hlt | heq
    · exact hfrom _ (Nat.le_refl _) hlt
    · rwa [heq]
  unfold Engine.selectAnswer
  cases hblock : e.boundaryBlock alpha n with
  | zero =>
    rw [hblock, Nat.mul_zero, rankRef_zero] at hreach
    omega
  | succ b =>
    rw [hblock] at hblocks hbefore hreach
    obtain ⟨q, hbit, hrank, hanswer⟩ := selectInBlock_of_le_rank
      (countBefore_of_indexed hinv hidx alpha hblocks) (hbefore b (Nat.lt_succ_self b)) hreach
    have hq : q < e.len.toNat := by
      by_contra hpast
      have := rankRef_mono e.bit alpha (Nat.not_lt.1 hpast)
      omega
    exact ⟨q, ⟨hq, hbit, hrank⟩, hanswer.trans (if_pos hq)⟩

/-- Past the total below `LEN` the search finds no occurrence, or one in the padding (R146, R173). -/
theorem selectAnswer_of_total_lt (hlt : rankRef e.bit alpha e.len.toNat < n) :
    e.selectAnswer alpha n = .raise .errNotFound := by
  obtain ⟨hblocks, hbefore, -⟩ := boundaryBlock_isLowerBound hinv hidx alpha n
  unfold Engine.selectAnswer
  cases hblock : e.boundaryBlock alpha n with
  | zero => rfl
  | succ b =>
    rw [hblock] at hblocks hbefore
    have hcount := countBefore_of_indexed hinv hidx alpha hblocks
    have hfew := hbefore b (Nat.lt_succ_self b)
    rcases Nat.lt_or_ge (rankRef e.bit alpha (448 * (b + 1))) n with hnone | hsome
    · exact selectInBlock_of_rank_lt hcount hfew hnone
    · obtain ⟨q, hbit, hrank, hanswer⟩ := selectInBlock_of_le_rank hcount hfew hsome
      have hq : ¬q < e.len.toNat := by
        intro hq
        have := rankRef_mono e.bit alpha (Nat.succ_le_of_lt hq)
        rw [rankRef_succ, if_pos hbit] at this
        omega
      exact hanswer.trans (if_neg hq)

end Answer

/-- Settles O47: the boundary block leaves one block to search; the occurrence found there is the
reference position, unless it lies in the padding. -/
theorem selectIsCorrect : Obligations.SelectIsCorrect := by
  refine ⟨fun n => ⟨decode_encode (.sel false n), decode_encode (.sel true n)⟩,
    fun s alpha n hinv hidx hn => ?_⟩
  rw [exec_sel_of_pos hinv hidx alpha hn]
  refine ⟨fun hle => ?_, fun hlt => ?_⟩
  · obtain ⟨q, href, hanswer⟩ := selectAnswer_of_le_total hinv.eng_inv hidx hn hle
    rw [hanswer]
    exact ⟨q, href, rfl⟩
  · rw [selectAnswer_of_total_lt hinv.eng_inv hidx hlt]
    rfl

end Sys2Proof.Machine
end

section
/-! The properties that tie the queries to each other and to the Flat Vector (R170, R174 to R180). -/

namespace Sys2Proof.Machine

/-- Settles O19: no verdict of a query command writes the engine, and a latched `FATAL` leaves it too. -/
theorem queryCommandsLeaveTheState : Obligations.QueryCommandsLeaveTheState := by
  intro i s t hi h
  exact exec_readOnly_eng hi h

/-! ### Counts and selected positions -/

/-- A count over a 64-bit number of positions is a 64-bit number. -/
theorem result_rankRef (bits : Nat → Bool) (alpha : Bool) (p : Word) :
    (result (rankRef bits alpha p.toNat)).toNat = rankRef bits alpha p.toNat :=
  result_toNat ((rankRef_le bits alpha p.toNat).trans_lt p.isLt)

@[simp] theorem result_toNat_self (n : Word) : result n.toNat = n := by
  rw [result, BitVec.ofNat_toNat, BitVec.setWidth_eq]

/-- The position after one that is below a 64-bit bound is a 64-bit number. -/
theorem toNat_add_one {p bound : Word} (h : p.toNat < bound.toNat) :
    (p + 1#64).toNat = p.toNat + 1 := by
  have hbound := bound.isLt
  rw [BitVec.toNat_add, BitVec.toNat_ofNat]
  omega

section SelectRef
variable {bits : Nat → Bool} {len n q : Nat} {alpha : Bool}

/-- Just past the `n`-th occurrence the count is `n`. -/
theorem IsSelectRef.rankRef_succ_eq (h : IsSelectRef bits len alpha n q) :
    rankRef bits alpha (q + 1) = n := by
  obtain ⟨-, hbit, hrank⟩ := h
  rw [rankRef_succ, if_pos hbit, hrank]

/-- No occurrence comes before the first. -/
theorem IsSelectRef.ne_of_lt_first (h : IsSelectRef bits len alpha 1 q) {i : Nat} (hi : i < q) :
    bits i ≠ alpha := by
  obtain ⟨-, -, hrank⟩ := h
  intro hbit
  have hmono := rankRef_mono bits alpha (Nat.succ_le_of_lt hi)
  rw [rankRef_succ, if_pos hbit] at hmono
  omega

/-- Sequences that agree below their length have the same reference positions. -/
theorem IsSelectRef.congr {bits' : Nat → Bool} (h : IsSelectRef bits len alpha n q)
    (hbits : ∀ i, i < len → bits i = bits' i) : IsSelectRef bits' len alpha n q := by
  obtain ⟨hlt, hbit, hrank⟩ := h
  refine ⟨hlt, hbits q hlt ▸ hbit, ?_⟩
  rw [← rankRef_congr alpha fun i hi => hbits i (hi.trans hlt), hrank]

end SelectRef

/-! ### The Word unit (R179) -/

section WordUnit
variable {s : State} (hfatal : s.eng.fatal = false) (alpha : Bool) (x : Word)
include hfatal

theorem exec_wrank_inRange {n : Word} (hn : n.toNat ≤ 64) : exec (.wrank alpha x n) s =
    .next (s.respond s.eng .ok (result (rankRef x.getLsbD alpha n.toNat))) :=
  (wrankCountsBelow.2 s alpha x n hfatal).2 hn

/-- WSEL finds a position where WACC answers `alpha` and just past which WRANK answers `n` (R179). -/
theorem exec_wsel_inverts_wrank {n : Word} (hn : 1 ≤ n.toNat)
    (hle : n.toNat ≤ rankRef x.getLsbD alpha 64) : ∃ q : Word,
    exec (.wsel alpha x n) s = .next (s.respond s.eng .ok q) ∧
    exec (.wacc x q) s = .next (s.respond s.eng .ok (if alpha then 1#64 else 0#64)) ∧
    exec (.wrank alpha x (q + 1#64)) s = .next (s.respond s.eng .ok n) := by
  obtain ⟨p, href, hsel⟩ := exec_wsel_found alpha x hfatal hn hle
  have ⟨hp, hbit, _⟩ := href
  have hq : (result p).toNat = p := result_toNat (by omega)
  have hsucc : (result p + 1#64).toNat = p + 1 := by
    rw [toNat_add_one (bound := 64#64) (hq.trans_lt hp), hq]
  refine ⟨result p, hsel, ?_, ?_⟩
  · rw [(waccTestsOneBit.2 s x _ hfatal).2 (hq.trans_lt hp), hq, hbit]
  · rw [exec_wrank_inRange hfatal alpha x (by omega), hsucc, href.rankRef_succ_eq,
      result_toNat_self]

end WordUnit

/-- Settles O26: WRANK is the reference count, WSEL finds the reference position, and a select of zeros is
by definition one of ones in the complement. -/
theorem wordRankAndSelectAgree : Obligations.WordRankAndSelectAgree := by
  intro s x hfatal
  refine ⟨fun n hn => ?_, fun alpha n n' hle hn' => ?_, fun alpha => ?_, fun n => rfl⟩
  · refine ⟨_, _, exec_wrank_inRange hfatal true x hn, exec_wrank_inRange hfatal false x hn, ?_⟩
    rw [result_rankRef, result_rankRef, rankRef_true_add_false]
  · refine ⟨_, _, exec_wrank_inRange hfatal alpha x (hle.trans hn'),
      exec_wrank_inRange hfatal alpha x hn', ?_⟩
    rw [result_rankRef, result_rankRef]
    exact rankRef_mono _ _ hle
  · have htotal := result_rankRef x.getLsbD alpha 64#64
    refine ⟨_, exec_wrank_inRange hfatal alpha x (n := 64#64) (Nat.le_refl 64),
      fun n hn hle => ?_, fun n hlt => ?_⟩
    · exact exec_wsel_inverts_wrank hfatal alpha x hn (htotal ▸ hle)
    · exact exec_wsel_notFound alpha x hfatal (htotal ▸ hlt)

/-! ### RANK and SEL on the Indexed Vector (R174 to R178) -/

section Queries
variable {s : State} (hinv : s.Inv) (hidx : s.eng.idx = .indexed) (alpha : Bool)
include hinv hidx

theorem exec_rank_inRange {p : Word} (hp : p.toNat < s.eng.len.toNat) : exec (.rank alpha p) s =
    .next (s.respond s.eng .ok (result (rankRef s.eng.bit alpha p.toNat))) := by
  obtain ⟨-, -, hok⟩ := rankIsCorrect.2 s alpha p hinv
  exact hok hidx hp

theorem exec_rank_outOfRange {p : Word} (hp : s.eng.len.toNat ≤ p.toNat) :
    exec (.rank alpha p) s = .next (s.respond s.eng .errRange 0#64) := by
  obtain ⟨-, hrange, -⟩ := rankIsCorrect.2 s alpha p hinv
  exact hrange hidx hp

/-- SEL answers a 64-bit number that is the reference position (R173). -/
theorem exec_sel_found {n : Word} (hn : 1 ≤ n.toNat)
    (hle : n.toNat ≤ rankRef s.eng.bit alpha s.eng.len.toNat) : ∃ q : Word,
    IsSelectRef s.eng.bit s.eng.len.toNat alpha n.toNat q.toNat ∧
      exec (.sel alpha n) s = .next (s.respond s.eng .ok q) := by
  obtain ⟨q, href, hsel⟩ := (selectIsCorrect.2 s alpha n hinv hidx hn).1 hle
  have hq : (result q).toNat = q := result_toNat (href.1.trans s.eng.len.isLt)
  exact ⟨result q, hq.symm ▸ href, hsel⟩

end Queries

/-- Settles O49: both ranks are reference counts, and the positions before `p` hold a one or a zero. -/
theorem ranksOfOnesAndZerosSumToThePosition : Obligations.RanksOfOnesAndZerosSumToThePosition := by
  intro s p hinv hidx hp
  refine ⟨_, _, exec_rank_inRange hinv hidx true hp, exec_rank_inRange hinv hidx false hp, ?_⟩
  rw [result_rankRef, result_rankRef, rankRef_true_add_false]

/-- Settles O50: the reference position holds `alpha`, and just past it the reference count is `n`. -/
theorem selectInvertsRank : Obligations.SelectInvertsRank := by
  intro s alpha n hinv hidx hn hle
  obtain ⟨q, href, hsel⟩ := exec_sel_found hinv hidx alpha hn hle
  have ⟨hq, hbit, _⟩ := href
  have hsucc := toNat_add_one hq
  refine ⟨q, hsel, ?_, fun hinside => ?_, fun hlast => ?_, href.rankRef_succ_eq⟩
  · rw [(accReadsOneBit.2 s q hinv.eng_inv.not_fatal).2 hq, hbit]
  · rw [exec_rank_inRange hinv hidx alpha (hsucc.trans_lt hinside), hsucc, href.rankRef_succ_eq,
      result_toNat_self]
  · exact exec_rank_outOfRange hinv hidx alpha (hsucc.trans hlast).ge

/-- Settles O51: reference counts never decrease, and one more position adds its own bit. -/
theorem rankIsMonotone : Obligations.RankIsMonotone := by
  intro s alpha hinv hidx
  refine ⟨fun p p' hle hp' => ?_, fun p hp => ?_⟩
  · refine ⟨_, _, exec_rank_inRange hinv hidx alpha (hle.trans_lt hp'),
      exec_rank_inRange hinv hidx alpha hp', ?_⟩
    rw [result_rankRef, result_rankRef]
    exact rankRef_mono _ _ hle
  · have hp0 : p.toNat < s.eng.len.toNat := Nat.lt_of_succ_lt hp
    have hsucc := toNat_add_one hp0
    refine ⟨_, _, exec_rank_inRange hinv hidx alpha hp0,
      exec_rank_inRange hinv hidx alpha (hsucc.trans_lt hp), ?_⟩
    rw [result_rankRef, result_rankRef, hsucc, rankRef_succ]

/-- Settles O52: no position is before 0, and before the first occurrence there is none. -/
theorem firstRankAndFirstSelect : Obligations.FirstRankAndFirstSelect := by
  intro s alpha hinv hidx
  refine ⟨fun hempty => ?_, fun hpos => ?_, fun hsome => ?_⟩
  · exact exec_rank_outOfRange hinv hidx alpha (by rw [hempty])
  · rw [exec_rank_inRange hinv hidx alpha (p := 0#64) hpos, BitVec.toNat_zero, rankRef_zero]
    rfl
  · obtain ⟨q, href, hsel⟩ := exec_sel_found hinv hidx alpha (n := 1#64) (Nat.le_refl 1) hsome
    have ⟨_, hbit, _⟩ := href
    exact ⟨q, hsel, hbit, fun _ hlt => href.ne_of_lt_first hlt⟩

/-! ### The queries after a build (R176, R180) -/

/-- Settles O42: either pass stores the payload of the Flat Vector, and so each of its bits. -/
theorem buildsCopyEveryBit : Obligations.BuildsCopyEveryBit := by
  intro i s t hinv hi h p hp
  have hwf := hinv.eng_inv.blk_wf
  rcases hi with rfl | rfl
  · rw [exec_bld hinv.eng_inv.not_fatal] at h
    obtain rfl := Host.Outcome.next.inj h
    exact bit_rebuild (fun _ _ hb hw => bldPass_pay _ hwf hb hw) hp
  · rw [exec_bldp hinv.eng_inv.not_fatal] at h
    obtain rfl := Host.Outcome.next.inj h
    exact bit_rebuild (fun _ _ hb hw => bldpPass_pay _ hwf hb hw) hp

/-- The engine of `t` is indexed and holds the Flat Vector of `e`. -/
structure HoldsFlatVector (e : Engine) (t : State) : Prop where
  inv : t.Inv
  indexed : t.eng.idx = .indexed
  len_eq : t.eng.len.toNat = 64 * e.fvn.toNat
  bit_eq : ∀ p, p < 64 * e.fvn.toNat → t.eng.bit p = e.fvBit p

theorem holdsFlatVector_bldp {s t : State} (hinv : s.Inv) (h : exec .bldp s = .next t) :
    HoldsFlatVector s.eng t := by
  have hinv_t := hinv.exec h
  have hbit := buildsCopyEveryBit .bldp s t hinv (.inr rfl) h
  rw [exec_bldp hinv.eng_inv.not_fatal] at h
  obtain rfl := Host.Outcome.next.inj h
  exact ⟨hinv_t, rfl, len_rebuild hinv.cfg_valid hinv.eng_inv, hbit⟩

/-- BLD and PRECOMP leave the engine of BLDP (R134), which holds the Flat Vector. -/
theorem holdsFlatVector_bld_precomp {s u t : State} (hinv : s.Inv) (hbld : exec .bld s = .next u)
    (hprecomp : exec .precomp u = .next t) : HoldsFlatVector s.eng t := by
  obtain ⟨hinv_t, hidx, v, hbldp, heng⟩ := bldpIsBldThenPrecomp s u t hinv hbld hprecomp
  obtain ⟨-, -, hlen, hbit⟩ := holdsFlatVector_bldp hinv hbldp
  exact ⟨hinv_t, hidx, heng ▸ hlen, heng ▸ hbit⟩

/-- Settles O53: after either build the Indexed Vector holds the bits of the Flat Vector, so the reference
counts and positions that RANK and SEL answer are those of the Flat Vector. -/
theorem queriesAfterABuildMatchTheFlatVector : Obligations.QueriesAfterABuildMatchTheFlatVector := by
  intro s t hinv hbuild
  obtain ⟨hinv_t, hidx, hlen, hbit⟩ : HoldsFlatVector s.eng t := by
    rcases hbuild with hbldp | ⟨u, hbld, hprecomp⟩
    · exact holdsFlatVector_bldp hinv hbldp
    · exact holdsFlatVector_bld_precomp hinv hbld hprecomp
  have hrank (alpha : Bool) {p : Nat} (hp : p ≤ 64 * s.eng.fvn.toNat) :
      rankRef s.eng.fvBit alpha p = rankRef t.eng.bit alpha p :=
    rankRef_congr alpha fun i hi => (hbit i (hi.trans_le hp)).symm
  refine ⟨fun alpha p hp => ?_, fun alpha n hn hle => ?_⟩
  · rw [hrank alpha hp.le]
    exact exec_rank_inRange hinv_t hidx alpha (hlen.symm ▸ hp)
  · rw [hrank alpha (Nat.le_refl _), ← hlen] at hle
    obtain ⟨q, href, hsel⟩ := (selectIsCorrect.2 t alpha n hinv_t hidx hn).1 hle
    rw [hlen] at href
    exact ⟨q, href.congr hbit, hsel⟩

end Sys2Proof.Machine
end

section
/-! The fatal latch, what an error response leaves, and the table of failures (R192, R193, R196, R205). -/

namespace Sys2Proof.Machine

/-! ### The fatal latch (R196) -/

/-- With `FATAL = 1` any word, legal or not, is answered `ERR_FATAL` (R66 step 1). -/
theorem step_command_fatal {s : State} {c : CommandWord} {rest : List HostEvent}
    (hfatal : s.eng.fatal = true) (hin : s.inbox = .command c :: rest) :
    step s = .next (({ s with inbox := rest } : State).respond s.eng .errFatal 0#64) := by
  obtain ⟨rule, hrule⟩ := runWord_eq_perform { s with inbox := rest } c
  rw [step_command hin, hrule]
  exact perform_fatal (s := { s with inbox := rest }) rule hfatal

/-- Settles O14: the preamble answers every word before its rule is looked at, and of the host's events
reset alone writes the engine without it. -/
theorem latchedFatalStopsEverythingButReset : Obligations.LatchedFatalStopsEverythingButReset := by
  refine ⟨fun s c rest hfatal hin => step_command_fatal hfatal hin, fun s t hfatal h => ?_⟩
  cases hin : s.inbox with
  | nil =>
    rw [step_idle hin] at h
    obtain rfl := Host.Outcome.next.inj h
    exact .inl hfatal
  | cons event rest =>
    cases event with
    | command c =>
      rw [step_command_fatal hfatal hin] at h
      obtain rfl := Host.Outcome.next.inj h
      exact .inl hfatal
    | takeResponse =>
      rw [step_takeResponse hin] at h
      obtain rfl := Host.Outcome.next.inj h
      exact .inl hfatal
    | reset => exact .inr ⟨rest, rfl⟩

/-! ### Error responses (R193) -/

/-- Settles O17: of the four ways a command can end, the latch and a raised error leave the engine, a new
inconsistency writes `FATAL` alone, and a reply is `OK`. -/
theorem errorResponsesChangeNothing : Obligations.ErrorResponsesChangeNothing := by
  intro s t c rest r hin h hrsp hst
  obtain ⟨rule, hrule⟩ := runWord_eq_perform { s with inbox := rest } c
  rw [step_command hin, hrule] at h
  rcases perform_cases h with ⟨-, rfl⟩ | ⟨-, st, -, rfl⟩ | ⟨-, -, rfl⟩ | ⟨-, e, val, -, rfl⟩ <;>
    obtain rfl := Option.some.inj hrsp
  · exact ⟨rfl, .inl rfl⟩
  · exact ⟨rfl, .inl rfl⟩
  · exact ⟨rfl, .inr ⟨rfl, rfl⟩⟩
  · exact absurd rfl hst

/-! ### The table of failures (R205) -/

/-- The status that answers a verdict. -/
def Verdict.status : Verdict → Status
  | .raise st => st
  | .raiseFatal => .errFatal
  | .reply _ _ => .ok

/-- With `FATAL = 0` the response to a command carries the status of its rule's verdict (R66). -/
theorem perform_status {s : State} (rule : Engine → Verdict) (hfatal : s.eng.fatal = false) :
    ∃ t r, s.perform rule = .next t ∧ t.rsp = some r ∧ r.st = (rule s.eng).status := by
  rw [perform_ready rule hfatal]
  cases rule s.eng with
  | raise st => exact ⟨_, _, rfl, rfl, rfl⟩
  | raiseFatal => exact ⟨_, _, rfl, rfl, rfl⟩
  | reply e val => exact ⟨_, _, rfl, rfl, rfl⟩

/-- The verdict `v` has the status of the table's entry: the listed failure, and `OK` where there is none. -/
def Verdict.AsListed (v : Verdict) (entry : Option Status) : Prop := v.status = entry.getD .ok

theorem Verdict.AsListed.reply (e : Engine) (val : Word) : (Verdict.reply e val).AsListed none := rfl

/-- A verdict is as listed when it has the first condition's status where that holds, and is as the rest of
the entry lists where it does not (R192). -/
theorem Verdict.AsListed.of_cases {c : Prop} [Decidable c] {st : Status} {v : Verdict}
    {entry : Option Status} (hfail : c → v.status = st) (hrest : ¬c → v.AsListed entry) :
    v.AsListed (failsIf c st entry) := by
  rw [failsIf]
  split
  · next hc => exact hfail hc
  · next hc => exact hrest hc

/-- A rule that checks first the condition that the table lists first is as listed when what comes after
the check is. -/
theorem Verdict.AsListed.check {c : Prop} [Decidable c] {st : Status} {v : Verdict}
    {entry : Option Status} (h : ¬c → v.AsListed entry) :
    (if c then .raise st else v).AsListed (failsIf c st entry) := by
  refine .of_cases (fun hc => ?_) fun hc => ?_
  · rw [if_pos hc]; rfl
  · rw [if_neg hc]; exact h hc

theorem one_le_toNat {n : Word} (hn : ¬n = 0#64) : 1 ≤ n.toNat :=
  Nat.pos_of_ne_zero fun h => hn (BitVec.eq_of_toNat_eq h)

/-- A word select for `n ≥ 1` fails exactly when the word holds too few occurrences (R85). -/
theorem asListed_wordSelect (e : Engine) (alpha : Bool) (x : Word) {n : Nat} (hn : 1 ≤ n) :
    (selectVerdict e (wordSelect alpha x n)).AsListed
      (failsIf (rankRef x.getLsbD alpha 64 < n) .errNotFound none) := by
  obtain ⟨hfound, hfew⟩ := wordSelect_spec alpha x n hn
  refine .of_cases (fun hlt => ?_) fun hle => ?_
  · rw [hfew hlt]; rfl
  · obtain ⟨p, hp, -⟩ := hfound (Nat.not_lt.1 hle)
    rw [hp]; exact .reply e _

/-- SEL's search for `n ≥ 1` fails exactly when fewer occurrences lie below `LEN` (R173). -/
theorem asListed_selectAnswer {cfg : Config} {e : Engine} (hinv : e.Inv cfg) (hidx : e.idx = .indexed)
    (alpha : Bool) {n : Nat} (hn : 1 ≤ n) :
    (e.selectAnswer alpha n).AsListed
      (failsIf (rankRef e.bit alpha e.len.toNat < n) .errNotFound none) := by
  refine .of_cases (fun hlt => ?_) fun hle => ?_
  · rw [selectAnswer_of_total_lt hinv hidx hlt]; rfl
  · obtain ⟨q, -, hanswer⟩ := selectAnswer_of_le_total hinv hidx hn (Nat.not_lt.1 hle)
    rw [hanswer]; exact .reply e _

theorem Lifecycle.eq_indexed {idx : Lifecycle} (h : ¬idx = .unindexed) : idx = .indexed := by
  cases idx with
  | unindexed => exact absurd rfl h
  | indexed => rfl

/-- Every command is run by a rule that checks what its row of the table lists, in the listed order. -/
theorem exec_asListed (i : Instr) {s : State} (hinv : s.Inv) :
    ∃ rule, exec i s = s.perform rule ∧ (rule s.eng).AsListed (failure i s) := by
  obtain ⟨-, heng⟩ := hinv
  cases i
  all_goals
    simp only [exec, execWset, execWacc, execWcnt, execWrank, execWsel, execWselone, execLutrd,
      execFvnew, execFvputw, execFvset, execFvunset, execFvacc, execFvcnt, execFvlen, execFvext,
      execBld, execBldp, execPrecomp, execLocate, execAcc, execSet, execRank, execSel, execOvh,
      execSize]
    refine ⟨_, rfl, ?_⟩
  case wcnt | fvcnt | fvlen | bld | bldp | precomp | ovh | size => exact .reply _ _
  case wset | wacc | wrank | lutrd | fvnew | fvputw | fvset | fvunset | fvacc | locate | acc =>
    exact .check fun _ => .reply _ _
  case set | rank => exact .check fun _ => .check fun _ => .reply _ _
  case fvext =>
    rw [← ite_or]
    exact .check fun _ => .reply _ _
  case wsel alpha x n =>
    exact .check fun hn => asListed_wordSelect s.eng alpha x (one_le_toNat hn)
  case wselone y n =>
    exact .check fun hn => asListed_wordSelect s.eng true y (one_le_toNat hn)
  case sel alpha n =>
    exact .check fun hidx => .check fun hn =>
      asListed_selectAnswer heng (Lifecycle.eq_indexed hidx) alpha (one_le_toNat hn)

/-- Settles O18: the status of the response is that of the verdict of the command's rule, which is as the
table lists it. -/
theorem statusIsAsTheTableSays : Obligations.StatusIsAsTheTableSays := by
  intro i s hinv
  obtain ⟨rule, hexec, hlisted⟩ := exec_asListed i hinv
  obtain ⟨t, r, hnext, hrsp, hst⟩ := perform_status rule hinv.eng_inv.not_fatal
  exact ⟨t, r, hexec.trans hnext, hrsp, hst.trans hlisted⟩

end Sys2Proof.Machine
end

section
/-! Reset, and the next state that every step has (R210, R221). -/

namespace Sys2Proof.Machine

/-! ### Reset (R210) -/

/-- Settles O12: the fields of the reset state have their values by definition, and a reset event, from any
state, leaves that state's engine and response port. -/
theorem resetGivesTheResetValues : Obligations.ResetGivesTheResetValues :=
  ⟨fun _ => ⟨rfl, rfl, rfl, rfl, rfl, rfl, rfl⟩,
    fun _ _ hin => ⟨_, step_reset hin, rfl, rfl, rfl, rfl, rfl⟩⟩

/-- The reset state has the invariants whenever its capacity is legal: the engine's need no bound on it. -/
theorem State.resetWith_inv {cfg : Config} (hcfg : cfg.Valid) : (State.resetWith cfg).Inv :=
  ⟨hcfg, Engine.reset_inv cfg⟩

/-- The capacity of the reset state that the host runs is one that R12 allows. -/
theorem Config.reference_valid : Config.reference.Valid := by decide

/-- Settles O59: the host's reset state is the one of a legal capacity. -/
theorem resetMeetsTheInvariants : Obligations.ResetMeetsTheInvariants :=
  ⟨fun _ hcfg => State.resetWith_inv hcfg, State.resetWith_inv Config.reference_valid⟩

/-! ### Every step has a next state (R221) -/

/-- Every word has a next state, legal or not: the operation that runs it neither faults nor refuses. -/
theorem runWord_next (s : State) (c : CommandWord) : ∃ t, s.runWord c = .next t := by
  obtain ⟨rule, hrule⟩ := runWord_eq_perform s c
  exact ⟨_, hrule⟩

/-- Settles O13: of the host's events only a command word runs a rule, and every word has a next state. -/
theorem everyStepHasANextState : Obligations.EveryStepHasANextState := by
  intro s
  cases hin : s.inbox with
  | nil => exact ⟨_, step_idle hin⟩
  | cons event rest =>
    cases event with
    | command c =>
      rw [step_command hin]
      exact runWord_next _ c
    | takeResponse => exact ⟨_, step_takeResponse hin⟩
    | reset => exact ⟨_, step_reset hin⟩

end Sys2Proof.Machine
end
